-- ==== Sys2Proof/Word.lean ====
section
/-! DEFINITION. The word, code and text types of the codec (00_scope.md section 5, 20_memory.md R26).

The instruction word is a 32-bit value and nothing else (R26, R27): there are no bytes, so no byte type and no byte order. -/

namespace Sys2Proof

/-- `Word`, the 32-bit instruction word (00_scope.md section 5, R35). -/
abbrev Word := BitVec 32

/-- A line of text, as its characters (R61: "UTF-8 text lines"; a `Char` is any Unicode scalar value). -/
abbrev Text := List Char

/-- A token, as its characters (00_scope.md section 5).
That no character is whitespace is the predicate `isToken` of Machine/Operands.lean, since whitespace is configuration
(log 20). -/
abbrev Token := List Char

/-- The characters of a string literal, to write tokens and lines readably. -/
def chars (s : String) : List Char := s.toList

end Sys2Proof
end

