-- ==== Sys2Proof/Config.lean ====
section
/-! DEFINITION. What an implementation fixes: the name sets and the configurable tables.

R3 and 00_scope.md section 4 make OPCODE_MAP, REG_MAP, COND_MAP and WHITESPACE parameters of the model.
`Tables` carries them with the constraints the spec puts on them, so an inadmissible configuration cannot be built.
Their default values (92_eei_decisions.md D1, D2, D3, D11) are `Tables.default` in Decode.lean, where a repair may mend them.
Every definition and every law of the model is stated for an arbitrary `Tables`. -/

namespace Sys2Proof

/-- The 17 opcode names (R40; 90_conflicts.md C3 tells them from the 20 mnemonics). -/
inductive OpcodeName
  | NOP | LOAD | STORE | MOV | LDI | ADD | SUB | CMP | AND | OR | XOR | NOT | INC | DEC | IN | OUT | JMP
deriving DecidableEq, Repr

/-- The 16 register names "A" to "P" (R19). They are operand names; the block holds no register contents (R14). -/
inductive Reg
  | A | B | C | D | E | F | G | H | I | J | K | L | M | N | O | P
deriving DecidableEq, Repr

/-- The 4 condition names (R21). -/
inductive Cond
  | AL | Z | N | C
deriving DecidableEq, Repr

/-- Every opcode name, in the order of R40's table. -/
def OpcodeName.all : List OpcodeName :=
  [.NOP, .LOAD, .STORE, .MOV, .LDI, .ADD, .SUB, .CMP, .AND, .OR, .XOR, .NOT, .INC, .DEC, .IN, .OUT, .JMP]

/-- Every register name, in alphabetical order. -/
def Reg.all : List Reg := [.A, .B, .C, .D, .E, .F, .G, .H, .I, .J, .K, .L, .M, .N, .O, .P]

/-- Every condition name, in R21's order. -/
def Cond.all : List Cond := [.AL, .Z, .N, .C]

/-- The characters of which canonical text is made: the names of R19, R21 and R39, decimal digits, and R94's "???". -/
def textChars : List Char := chars "ABCDEFGHIJKLMNOPQRSTUVWXYZ0123456789?"

/-- The block's tables that a configuration fixes (R17), each as the list whose entry `c` is the name bound to code `c`.
The proof fields are R3's constraints: a bijection onto the codes, and the entries the document itself gives.
The two constraints on whitespace are a DESIGN CHOICE, safe (log 3). -/
structure Tables where
  /-- OPCODE_MAP (R40, D1). -/
  opcodes : List OpcodeName
  /-- REG_MAP (R19, D2). -/
  regs : List Reg
  /-- COND_MAP (R21, D3). -/
  conds : List Cond
  /-- WHITESPACE, the characters that separate tokens (R61, D11). -/
  whitespace : List Char
  opcodes_length : opcodes.length = 17
  opcodes_nodup : opcodes.Nodup
  opcodes_nop : opcodes[0]? = some .NOP
  opcodes_add : opcodes[5]? = some .ADD
  regs_length : regs.length = 16
  regs_nodup : regs.Nodup
  regs_a : regs[0]? = some .A
  regs_b : regs[1]? = some .B
  regs_p : regs[15]? = some .P
  conds_length : conds.length = 4
  conds_nodup : conds.Nodup
  conds_c : conds[3]? = some .C
  space_separates : ' ' ∈ whitespace
  text_visible : textChars.filter whitespace.contains = []
deriving DecidableEq, Repr

/-- The number of assigned opcodes (R3, R40; 90_conflicts.md C1). -/
abbrev numOpcodes : Nat := 17

/-- The largest 22-bit immediate, `2^22 - 1` (R3, R48). -/
abbrev maxImm : Nat := 4194303

end Sys2Proof
end

