-- ==== Sys2Proof/Syntax.lean ====
section
/-! DEFINITION. The instructions as syntax: one constructor per row of spec/opcode_table.json (R36, R39). -/

namespace Sys2Proof

/-- The 20 mnemonics (R39): the 16 opcode names other than JMP, and the four jump mnemonics. -/
inductive Mnemonic
  | NOP | LOAD | STORE | MOV | LDI | ADD | SUB | CMP | AND | OR | XOR | NOT | INC | DEC | IN | OUT
  | JMP | JMPM | JMPA | JMPR
deriving DecidableEq, Repr

/-- Every mnemonic, in R39's order. -/
def Mnemonic.all : List Mnemonic :=
  [.NOP, .LOAD, .STORE, .MOV, .LDI, .ADD, .SUB, .CMP, .AND, .OR, .XOR, .NOT, .INC, .DEC, .IN, .OUT,
   .JMP, .JMPM, .JMPA, .JMPR]

/-- The six encoding families (R36). -/
inductive Family
  | NoOperand | RegisterALU | PortIO | LoadImmediate | JumpIndirect | JumpDirect
deriving DecidableEq, Repr

/-- The `Instruction` value of R36, one constructor per mnemonic.
A RegisterALU member carries `src`, `dst` and the 1-bit `flag`, a PortIO member `src` and `dst`, LDI `dst` and `imm`.
The JumpIndirect members carry `cond` and `reg`, the JumpDirect members `cond` and `imm`.
The constructor fixes `mem` and `rel` (R36).
Numbers are plain naturals; `WellFormed` gives their ranges. -/
inductive Instr
  | nop
  | load (src dst : Reg) (flag : Nat)
  | store (src dst : Reg) (flag : Nat)
  | mov (src dst : Reg) (flag : Nat)
  | ldi (dst : Reg) (imm : Nat)
  | add (src dst : Reg) (flag : Nat)
  | sub (src dst : Reg) (flag : Nat)
  | cmp (src dst : Reg) (flag : Nat)
  | and (src dst : Reg) (flag : Nat)
  | or (src dst : Reg) (flag : Nat)
  | xor (src dst : Reg) (flag : Nat)
  | not (src dst : Reg) (flag : Nat)
  | inc (src dst : Reg) (flag : Nat)
  | dec (src dst : Reg) (flag : Nat)
  | portIn (src dst : Reg)
  | portOut (src dst : Reg)
  | jmp (cond : Cond) (reg : Reg)
  | jmpm (cond : Cond) (reg : Reg)
  | jmpa (cond : Cond) (imm : Nat)
  | jmpr (cond : Cond) (imm : Nat)
deriving DecidableEq, Repr

/-- The mnemonic of an instruction (R36, last paragraph). -/
def Instr.mnemonic : Instr → Mnemonic
  | .nop => .NOP
  | .load _ _ _ => .LOAD
  | .store _ _ _ => .STORE
  | .mov _ _ _ => .MOV
  | .ldi _ _ => .LDI
  | .add _ _ _ => .ADD
  | .sub _ _ _ => .SUB
  | .cmp _ _ _ => .CMP
  | .and _ _ _ => .AND
  | .or _ _ _ => .OR
  | .xor _ _ _ => .XOR
  | .not _ _ _ => .NOT
  | .inc _ _ _ => .INC
  | .dec _ _ _ => .DEC
  | .portIn _ _ => .IN
  | .portOut _ _ => .OUT
  | .jmp _ _ => .JMP
  | .jmpm _ _ => .JMPM
  | .jmpa _ _ => .JMPA
  | .jmpr _ _ => .JMPR

end Sys2Proof
end

