-- ==== Sys2Proof/WellFormed.lean ====
section
/-! DEFINITION. Which `Instr` terms are well-formed instructions (R36): every operand within its stated range. -/

namespace Sys2Proof

/-- The RegisterALU flag is one bit (R36, R49). -/
def flagOk (flag : Nat) : Bool := flag ≤ 1

/-- The immediates of LDI, JMPA and JMPR are 22-bit unsigned (R36, R48). -/
def immOk (imm : Nat) : Bool := imm ≤ maxImm

/-- The check of R36: "every combination of operand values within the stated ranges is well-formed, for every member". -/
def Instr.wf : Instr → Bool
  | .nop => true
  | .load _ _ flag => flagOk flag
  | .store _ _ flag => flagOk flag
  | .mov _ _ flag => flagOk flag
  | .ldi _ imm => immOk imm
  | .add _ _ flag => flagOk flag
  | .sub _ _ flag => flagOk flag
  | .cmp _ _ flag => flagOk flag
  | .and _ _ flag => flagOk flag
  | .or _ _ flag => flagOk flag
  | .xor _ _ flag => flagOk flag
  | .not _ _ flag => flagOk flag
  | .inc _ _ flag => flagOk flag
  | .dec _ _ flag => flagOk flag
  | .portIn _ _ => true
  | .portOut _ _ => true
  | .jmp _ _ => true
  | .jmpm _ _ => true
  | .jmpa _ imm => immOk imm
  | .jmpr _ imm => immOk imm

/-- A well-formed `Instruction` (R36). -/
abbrev Instr.WellFormed (i : Instr) : Prop := i.wf = true

end Sys2Proof
end

