-- ==== Sys2Proof/Decode.lean ====
section
/-! DEFINITION. The default tables, the Format Catalog, the decoder DEC (R86) and the packing of instruction words (R73).

Everything here is total.
The decoder rejects a word only as the spec does, by the ordinary value `Unknown` with the raw opcode (R88). -/

namespace Sys2Proof

/-! ## The default configuration -/

/-- OPCODE_MAP's default (R40, D1): entry `c` is the name with code `c`.
DESIGN CHOICE of the spec, unsafe for words of opcodes other than NOP and ADD (log 4). -/
def defaultOpcodes : List OpcodeName :=
  [.NOP, .LOAD, .STORE, .MOV, .LDI, .ADD, .SUB, .CMP, .AND, .OR, .XOR, .NOT, .INC, .DEC, .IN, .OUT, .JMP]

/-- REG_MAP's default (R19, D2): alphabetical. DESIGN CHOICE of the spec, unsafe for C to O (log 4). -/
def defaultRegs : List Reg := [.A, .B, .C, .D, .E, .F, .G, .H, .I, .J, .K, .L, .M, .N, .O, .P]

/-- COND_MAP's default (R21, D3). DESIGN CHOICE of the spec, unsafe for AL, Z and N (log 4). -/
def defaultConds : List Cond := [.AL, .Z, .N, .C]

/-- WHITESPACE's default (R61, D11): U+0020, U+0009, U+000A, U+000B, U+000C, U+000D.
PRESUMED by the spec (G1), unsafe (log 18). -/
def defaultWhitespace : List Char :=
  [Char.ofNat 0x20, Char.ofNat 0x09, Char.ofNat 0x0A, Char.ofNat 0x0B, Char.ofNat 0x0C, Char.ofNat 0x0D]

/-- The default configuration (D1, D2, D3, D11). -/
def Tables.default : Tables where
  opcodes := defaultOpcodes
  regs := defaultRegs
  conds := defaultConds
  whitespace := defaultWhitespace
  opcodes_length := by decide
  opcodes_nodup := by decide
  opcodes_nop := by decide
  opcodes_add := by decide
  regs_length := by decide
  regs_nodup := by decide
  regs_a := by decide
  regs_b := by decide
  regs_p := by decide
  conds_length := by decide
  conds_nodup := by decide
  conds_c := by decide
  space_separates := by decide
  text_visible := by decide

/-! ## Bit fields and the lookup tables, both directions -/

/-- `w[hi:lo]` (00_scope.md section 5): `floor(w / 2^lo) mod 2^(hi-lo+1)`. -/
def bits (w : Word) (hi lo : Nat) : Nat := w.toNat / 2 ^ lo % 2 ^ (hi - lo + 1)

/-- The opcode field `w[31:26]` (R38), which is also `dec_raw_opcode` (R18). -/
def opcodeField (w : Word) : BitVec 6 := BitVec.ofNat 6 (bits w 31 26)

/-- `opcode_code` (R40): the position of the name in OPCODE_MAP. -/
def opcodeCode (T : Tables) (op : OpcodeName) : BitVec 6 := BitVec.ofNat 6 (T.opcodes.idxOf op)

/-- `opcode_name` (R40): `none` for an unassigned code. -/
def opcodeName (T : Tables) (c : BitVec 6) : Option OpcodeName := T.opcodes[c.toNat]?

/-- The code of a register name (R19). -/
def regCode (T : Tables) (r : Reg) : BitVec 4 := BitVec.ofNat 4 (T.regs.idxOf r)

/-- `reg_name` (R20), total: "no failure path". -/
def regName (T : Tables) (c : BitVec 4) : Reg :=
  T.regs[c.toNat]'(T.regs_length.symm ▸ c.isLt)

/-- The code of a condition name (R21). -/
def condCode (T : Tables) (c : Cond) : BitVec 2 := BitVec.ofNat 2 (T.conds.idxOf c)

/-- `cond_name` (R22), total. -/
def condName (T : Tables) (c : BitVec 2) : Cond :=
  T.conds[c.toNat]'(T.conds_length.symm ▸ c.isLt)

/-! ## The Format Catalog -/

/-- The opcode name a mnemonic carries (R39, first result of `mnemonic_lookup`). -/
def Mnemonic.opName : Mnemonic → OpcodeName
  | .NOP => .NOP
  | .LOAD => .LOAD
  | .STORE => .STORE
  | .MOV => .MOV
  | .LDI => .LDI
  | .ADD => .ADD
  | .SUB => .SUB
  | .CMP => .CMP
  | .AND => .AND
  | .OR => .OR
  | .XOR => .XOR
  | .NOT => .NOT
  | .INC => .INC
  | .DEC => .DEC
  | .IN => .IN
  | .OUT => .OUT
  | .JMP => .JMP
  | .JMPM => .JMP
  | .JMPA => .JMP
  | .JMPR => .JMP

/-- The mode `w[1:0]` a jump mnemonic selects (R39, R47); other mnemonics have none. -/
def Mnemonic.mode : Mnemonic → Option Nat
  | .JMP => some 0b00
  | .JMPM => some 0b01
  | .JMPA => some 0b10
  | .JMPR => some 0b11
  | .NOP | .LOAD | .STORE | .MOV | .LDI | .ADD | .SUB | .CMP | .AND | .OR | .XOR | .NOT | .INC | .DEC | .IN
  | .OUT => none

/-- The family of a mnemonic (R39, second result of `mnemonic_lookup`). -/
def Mnemonic.family : Mnemonic → Family
  | .NOP => .NoOperand
  | .LOAD | .STORE | .MOV | .ADD | .SUB | .CMP | .AND | .OR | .XOR | .NOT | .INC | .DEC => .RegisterALU
  | .IN | .OUT => .PortIO
  | .LDI => .LoadImmediate
  | .JMP | .JMPM => .JumpIndirect
  | .JMPA | .JMPR => .JumpDirect

/-- `family_of` (R37), with the mode bit `w[1]` that picks within the jump pair. -/
def familyOf (op : OpcodeName) (modeHigh : Nat) : Family :=
  match op with
  | .NOP => .NoOperand
  | .LOAD | .STORE | .MOV | .ADD | .SUB | .CMP | .AND | .OR | .XOR | .NOT | .INC | .DEC => .RegisterALU
  | .IN | .OUT => .PortIO
  | .LDI => .LoadImmediate
  | .JMP => if modeHigh = 0 then .JumpIndirect else .JumpDirect

/-- The family of a word: `family_of_code` (R37) of its opcode, then the mode when the opcode is JMP (R35). -/
def familyOfWord (T : Tables) (w : Word) : Option Family :=
  (opcodeName T (opcodeField w)).map fun op => familyOf op (bits w 1 1)

/-- The fields a layout of R41 names. -/
inductive FieldName
  | opcode | src | dst | flag | imm | reg | cond | mode
deriving DecidableEq, Repr

/-- One field of a layout: its name and its bits `hi` down to `lo`. -/
structure Field where
  name : FieldName
  hi : Nat
  lo : Nat
deriving DecidableEq, Repr

/-- The fields of each family (R41's layout table; the table wins over the prose, 90_conflicts.md C2). -/
def Family.fields : Family → List Field
  | .NoOperand => [⟨.opcode, 31, 26⟩]
  | .RegisterALU => [⟨.opcode, 31, 26⟩, ⟨.src, 25, 22⟩, ⟨.dst, 21, 18⟩, ⟨.flag, 17, 17⟩]
  | .PortIO => [⟨.opcode, 31, 26⟩, ⟨.src, 25, 22⟩, ⟨.dst, 21, 18⟩]
  | .LoadImmediate => [⟨.opcode, 31, 26⟩, ⟨.dst, 25, 22⟩, ⟨.imm, 21, 0⟩]
  | .JumpIndirect => [⟨.opcode, 31, 26⟩, ⟨.reg, 25, 22⟩, ⟨.cond, 21, 20⟩, ⟨.mode, 1, 0⟩]
  | .JumpDirect => [⟨.opcode, 31, 26⟩, ⟨.cond, 25, 24⟩, ⟨.imm, 23, 2⟩, ⟨.mode, 1, 0⟩]

/-- The unused bits of each family, highest and lowest (R41), where it has any. -/
def Family.unused : Family → Option (Nat × Nat)
  | .NoOperand => some (25, 0)
  | .RegisterALU => some (16, 0)
  | .PortIO => some (17, 0)
  | .LoadImmediate => none
  | .JumpIndirect => some (19, 2)
  | .JumpDirect => none

/-- Bit `k` is an unused bit of the family (R41). -/
def Family.unusedBit (fam : Family) (k : Nat) : Bool :=
  match fam.unused with
  | none => false
  | some (hi, lo) => lo ≤ k && k ≤ hi

/-- The family of an instruction (R36). -/
def Instr.family (i : Instr) : Family := i.mnemonic.family

/-- The opcode name of an instruction (R39, R40). -/
def Instr.opName (i : Instr) : OpcodeName := i.mnemonic.opName

/-! ## The decoder -/

/-- A register field read through the inverse table (R90). -/
def unpackReg (T : Tables) (w : Word) (hi lo : Nat) : Reg := regName T (BitVec.ofNat 4 (bits w hi lo))

/-- A condition field read through the inverse table (R90). -/
def unpackCond (T : Tables) (w : Word) (hi lo : Nat) : Cond := condName T (BitVec.ofNat 2 (bits w hi lo))

/-- `unpack_RegisterALU` (R43), for the member `mk`. -/
def unpackRegisterALU (T : Tables) (mk : Reg → Reg → Nat → Instr) (w : Word) : Instr :=
  mk (unpackReg T w 25 22) (unpackReg T w 21 18) (bits w 17 17)

/-- `unpack_PortIO` (R44), for the member `mk`. -/
def unpackPortIO (T : Tables) (mk : Reg → Reg → Instr) (w : Word) : Instr :=
  mk (unpackReg T w 25 22) (unpackReg T w 21 18)

/-- `unpack_LoadImmediate` (R45). -/
def unpackLoadImmediate (T : Tables) (w : Word) : Instr := .ldi (unpackReg T w 25 22) (bits w 21 0)

/-- The operands of a JumpIndirect word (R46), for the member `mk`. -/
def unpackJumpIndirect (T : Tables) (mk : Cond → Reg → Instr) (w : Word) : Instr :=
  mk (unpackCond T w 21 20) (unpackReg T w 25 22)

/-- The operands of a JumpDirect word (R46), for the member `mk`. -/
def unpackJumpDirect (T : Tables) (mk : Cond → Nat → Instr) (w : Word) : Instr :=
  mk (unpackCond T w 25 24) (bits w 23 2)

/-- `unpack_Jump` (R46, R89): `w[1]` picks the family, `w[0]` the member. -/
def unpackJump (T : Tables) (w : Word) : Instr :=
  if bits w 1 1 = 0 then
    if bits w 0 0 = 0 then unpackJumpIndirect T .jmp w else unpackJumpIndirect T .jmpm w
  else
    if bits w 0 0 = 0 then unpackJumpDirect T .jmpa w else unpackJumpDirect T .jmpr w

/-- The unpacking of a word whose opcode is `op` (R86's match; R42 for NOP, which reads no field). -/
def unpack (T : Tables) (op : OpcodeName) (w : Word) : Instr :=
  match op with
  | .NOP => .nop
  | .LOAD => unpackRegisterALU T .load w
  | .STORE => unpackRegisterALU T .store w
  | .MOV => unpackRegisterALU T .mov w
  | .LDI => unpackLoadImmediate T w
  | .ADD => unpackRegisterALU T .add w
  | .SUB => unpackRegisterALU T .sub w
  | .CMP => unpackRegisterALU T .cmp w
  | .AND => unpackRegisterALU T .and w
  | .OR => unpackRegisterALU T .or w
  | .XOR => unpackRegisterALU T .xor w
  | .NOT => unpackRegisterALU T .not w
  | .INC => unpackRegisterALU T .inc w
  | .DEC => unpackRegisterALU T .dec w
  | .IN => unpackPortIO T .portIn w
  | .OUT => unpackPortIO T .portOut w
  | .JMP => unpackJump T w

/-- The decoder's result (R85): `Known(i)` or `Unknown{raw_opcode}`. -/
inductive DecodedLine
  | known (i : Instr)
  | unknown (rawOpcode : BitVec 6)
deriving DecidableEq, Repr

/-- `decode`, the whole behaviour of DEC (R86): opcode lookup, then the family's unpacking.
Unused bits are not read (R51, D9): DESIGN CHOICE of the spec, unsafe outside the canonical words (log 6). -/
def decode (T : Tables) (w : Word) : DecodedLine :=
  match opcodeName T (opcodeField w) with
  | none => .unknown (opcodeField w)
  | some op => .known (unpack T op w)

/-- A canonical word (R52): an assigned opcode, and every unused bit of its family zero. -/
def canonical (T : Tables) (w : Word) : Bool :=
  match familyOfWord T w with
  | none => false
  | some fam =>
    match fam.unused with
    | none => true
    | some (hi, lo) => bits w hi lo == 0

/-! ## The packing: the word of an instruction -/

/-- `pack` of a RegisterALU member (R43). -/
def packRegisterALU (T : Tables) (op : OpcodeName) (src dst : Reg) (flag : Nat) : Word :=
  BitVec.ofNat 32 ((opcodeCode T op).toNat <<< 26 ||| (regCode T src).toNat <<< 22 |||
    (regCode T dst).toNat <<< 18 ||| flag <<< 17)

/-- `pack` of a PortIO member (R44). -/
def packPortIO (T : Tables) (op : OpcodeName) (src dst : Reg) : Word :=
  BitVec.ofNat 32 ((opcodeCode T op).toNat <<< 26 ||| (regCode T src).toNat <<< 22 |||
    (regCode T dst).toNat <<< 18)

/-- `pack` of LDI (R45). -/
def packLoadImmediate (T : Tables) (dst : Reg) (imm : Nat) : Word :=
  BitVec.ofNat 32 ((opcodeCode T .LDI).toNat <<< 26 ||| (regCode T dst).toNat <<< 22 ||| imm)

/-- `pack` of a JumpIndirect member with memory flag `mem` (R46). -/
def packJumpIndirect (T : Tables) (cond : Cond) (reg : Reg) (mem : Nat) : Word :=
  BitVec.ofNat 32 ((opcodeCode T .JMP).toNat <<< 26 ||| (regCode T reg).toNat <<< 22 |||
    (condCode T cond).toNat <<< 20 ||| mem)

/-- `pack` of a JumpDirect member with relative flag `rel` (R46). -/
def packJumpDirect (T : Tables) (cond : Cond) (imm rel : Nat) : Word :=
  BitVec.ofNat 32 ((opcodeCode T .JMP).toNat <<< 26 ||| (condCode T cond).toNat <<< 24 |||
    imm <<< 2 ||| 0b10 ||| rel)

/-- `pack` (R73), the document's `encode_fields` (90_conflicts.md C7): the word of an instruction (R42 to R46).
It has no failure path, and no mask: the spec applies it to well-formed instructions only.
On other terms it is what the same equation gives: DESIGN CHOICE, safe (log 13). -/
def pack (T : Tables) (i : Instr) : Word :=
  match i with
  | .nop => BitVec.ofNat 32 ((opcodeCode T .NOP).toNat <<< 26)
  | .load src dst flag => packRegisterALU T .LOAD src dst flag
  | .store src dst flag => packRegisterALU T .STORE src dst flag
  | .mov src dst flag => packRegisterALU T .MOV src dst flag
  | .ldi dst imm => packLoadImmediate T dst imm
  | .add src dst flag => packRegisterALU T .ADD src dst flag
  | .sub src dst flag => packRegisterALU T .SUB src dst flag
  | .cmp src dst flag => packRegisterALU T .CMP src dst flag
  | .and src dst flag => packRegisterALU T .AND src dst flag
  | .or src dst flag => packRegisterALU T .OR src dst flag
  | .xor src dst flag => packRegisterALU T .XOR src dst flag
  | .not src dst flag => packRegisterALU T .NOT src dst flag
  | .inc src dst flag => packRegisterALU T .INC src dst flag
  | .dec src dst flag => packRegisterALU T .DEC src dst flag
  | .portIn src dst => packPortIO T .IN src dst
  | .portOut src dst => packPortIO T .OUT src dst
  | .jmp cond reg => packJumpIndirect T cond reg 0
  | .jmpm cond reg => packJumpIndirect T cond reg 1
  | .jmpa cond imm => packJumpDirect T cond imm 0
  | .jmpr cond imm => packJumpDirect T cond imm 1

/-- The number an instruction has in a field of the catalog (R41, R36), `none` where its family lacks the field. -/
def Instr.fieldValue (T : Tables) (i : Instr) : FieldName → Option Nat
  | .opcode => some (opcodeCode T i.opName).toNat
  | .mode => i.mnemonic.mode
  | .src =>
    match i with
    | .load src _ _ | .store src _ _ | .mov src _ _ | .add src _ _ | .sub src _ _ | .cmp src _ _ | .and src _ _
    | .or src _ _ | .xor src _ _ | .not src _ _ | .inc src _ _ | .dec src _ _ | .portIn src _
    | .portOut src _ => some (regCode T src).toNat
    | .nop | .ldi _ _ | .jmp _ _ | .jmpm _ _ | .jmpa _ _ | .jmpr _ _ => none
  | .dst =>
    match i with
    | .load _ dst _ | .store _ dst _ | .mov _ dst _ | .add _ dst _ | .sub _ dst _ | .cmp _ dst _ | .and _ dst _
    | .or _ dst _ | .xor _ dst _ | .not _ dst _ | .inc _ dst _ | .dec _ dst _ | .portIn _ dst
    | .portOut _ dst | .ldi dst _ => some (regCode T dst).toNat
    | .nop | .jmp _ _ | .jmpm _ _ | .jmpa _ _ | .jmpr _ _ => none
  | .flag =>
    match i with
    | .load _ _ flag | .store _ _ flag | .mov _ _ flag | .add _ _ flag | .sub _ _ flag | .cmp _ _ flag
    | .and _ _ flag | .or _ _ flag | .xor _ _ flag | .not _ _ flag | .inc _ _ flag
    | .dec _ _ flag => some flag
    | .nop | .ldi _ _ | .portIn _ _ | .portOut _ _ | .jmp _ _ | .jmpm _ _ | .jmpa _ _ | .jmpr _ _ => none
  | .imm =>
    match i with
    | .ldi _ imm | .jmpa _ imm | .jmpr _ imm => some imm
    | .nop | .load _ _ _ | .store _ _ _ | .mov _ _ _ | .add _ _ _ | .sub _ _ _ | .cmp _ _ _ | .and _ _ _
    | .or _ _ _ | .xor _ _ _ | .not _ _ _ | .inc _ _ _ | .dec _ _ _ | .portIn _ _ | .portOut _ _ | .jmp _ _
    | .jmpm _ _ => none
  | .reg =>
    match i with
    | .jmp _ reg | .jmpm _ reg => some (regCode T reg).toNat
    | .nop | .load _ _ _ | .store _ _ _ | .mov _ _ _ | .ldi _ _ | .add _ _ _ | .sub _ _ _ | .cmp _ _ _
    | .and _ _ _ | .or _ _ _ | .xor _ _ _ | .not _ _ _ | .inc _ _ _ | .dec _ _ _ | .portIn _ _ | .portOut _ _
    | .jmpa _ _ | .jmpr _ _ => none
  | .cond =>
    match i with
    | .jmp cond _ | .jmpm cond _ | .jmpa cond _ | .jmpr cond _ => some (condCode T cond).toNat
    | .nop | .load _ _ _ | .store _ _ _ | .mov _ _ _ | .ldi _ _ | .add _ _ _ | .sub _ _ _ | .cmp _ _ _
    | .and _ _ _ | .or _ _ _ | .xor _ _ _ | .not _ _ _ | .inc _ _ _ | .dec _ _ _ | .portIn _ _
    | .portOut _ _ => none

/-! ## The host's reading of a table row -/

/-- A word numbered as spec/opcode_table.json numbers it: `nbits` bits, and every bit above them zero.
The word has no byte order (R26, D13; log 12). -/
def tableWord (nbits w : Nat) : Word := BitVec.ofNat 32 (w % 2 ^ nbits)

/-- The instruction the decoder reads from a table row's word, under the default tables; `none` for an `Unknown`. -/
def decodeTableWord (nbits w : Nat) : Option Instr :=
  match decode Tables.default (tableWord nbits w) with
  | .known i => some i
  | .unknown _ => none

end Sys2Proof
end

