-- ==== Sys2Proof/Machine/State.lean ====
section
/-! DEFINITION. The state of the machine, its outcomes, and the machine right after reset.

The block has no storage element that any operation writes (R13): no register contents (R14), no program counter (R15),
no flags and no control registers (R16), no memory and no address space (R25).
What the spec does give it is its constant tables (R17, R24) and its two interfaces, ENC and DEC (R18).
Its host hands it a finite sequence of calls and receives the results in order (R2, R30, R181).
So State holds the tables, the calls not yet answered and the answers given. -/

namespace Sys2Proof.Machine

/-- The encoder's failures, six kinds and no payload (R152; D4, log 16). -/
inductive EncodeError
  | UnknownMnemonic
  | OperandCountMismatch
  | UnknownRegister
  | UnknownCondition
  | InvalidImmediate
  | ImmediateOutOfRange
deriving DecidableEq, Repr

/-- `Result<Word, EncodeError>`, what ENC answers (R60): the ports `enc_ok`, `enc_word`, `enc_err` as one sum type (R18). -/
abbrev EncResult := Except EncodeError Word

/-- One call of the block (R18, R181).
`line` is a line of text for ENC behind its text adapter (R61), `tokens` a line already split, `word` a word for DEC. -/
inductive Call
  | line (text : Text)
  | tokens (ts : List Token)
  | word (w : Word)
deriving DecidableEq, Repr

/-- What DEC's ports carry for one word (R18), with its text adapter's output.
`line` is the pair `dec_known`, `dec_instr` as a sum type (R85), `rawOpcode` is `dec_raw_opcode`, which is always valid,
and `text` is the canonical text (R92, R94), which the renderer would compute: DESIGN CHOICE, safe (log 5). -/
structure DecOutput where
  line : DecodedLine
  rawOpcode : BitVec 6
  text : Text
deriving DecidableEq, Repr

/-- The answer to one call: ENC's result or DEC's output. -/
inductive Answer
  | encoded (r : EncResult)
  | decoded (d : DecOutput)
deriving DecidableEq, Repr

/-- The machine's state. -/
structure State where
  /-- The opcode, register and condition tables and the whitespace set (R17, R24), constant at all times. -/
  tables : Tables
  /-- The calls not yet answered, in the order made (R30, R181); the first is at the input ports. -/
  calls : List Call
  /-- The answers given so far, in the order of the calls (R30). -/
  answers : List Answer
deriving DecidableEq, Repr

/-- Why the machine stops with a fault: it never does, so there is no reason.
An encode failure is the value of its call and stops nothing (R163, R164, R165), and DEC has no failure (R162). -/
inductive Fault
deriving DecidableEq, Repr

/-- Why the machine refuses an instruction. -/
inductive Refusal
  /-- Raised by no arm of this model: every instruction has its meaning.
  It stands for an arm of exec that has none (safe: a run stops there). -/
  | notModelled (mnemonic : String)
deriving DecidableEq, Repr

/-- One step's outcome. -/
abbrev Outcome := Host.Outcome State Fault Refusal

/-- The machine right after reset: the tables hold their defined contents (R24, R176), under the default configuration.
No call has been made and none answered (R177): DESIGN CHOICE, unsafe (log 2). -/
def State.reset : State where
  tables := Tables.default
  calls := []
  answers := []

end Sys2Proof.Machine
end

