-- ==== Sys2Proof/Machine/Flags.lean ====
section
/-! DEFINITION. The flag operand of the RegisterALU family (R49).

The block has no status flags (R16), and "Flags written" is "none" for every instruction (42_no_operand.md onwards),
so no flag computation exists.
The one flag of the instruction set is an operand: bit 17 of a RegisterALU word, the optional third operand of its line. -/

namespace Sys2Proof.Machine

/-- The flag of a line that gives none (R49: "1-bit flag (default 0)"). -/
def defaultFlag : Nat := 0

/-- The canonical tokens of a flag: none when it is 0, else its number (R92: "omit the trailing flag token when its
value is 0").
R92 gives 0 and 1 only; a larger number, in no well-formed instruction, is printed too: DESIGN CHOICE, safe (log 13). -/
def flagTokens (flag : Nat) : List Token :=
  if flag = 0 then [] else [Nat.toDigits 10 flag]

end Sys2Proof.Machine
end

