-- ==== Sys2Proof/Machine/Operands.lean ====
section
/-! DEFINITION. Every operand form of the assembly language, both ways:
the names and their spelling (R19 to R22, R39), numerals (R69, R92), the arity and the roles of operand tokens (R64, R66). -/

namespace Sys2Proof

/-! ## Names and their spelling -/

/-- The spelling of a register name (R19). -/
def Reg.token : Reg → Token
  | .A => chars "A"
  | .B => chars "B"
  | .C => chars "C"
  | .D => chars "D"
  | .E => chars "E"
  | .F => chars "F"
  | .G => chars "G"
  | .H => chars "H"
  | .I => chars "I"
  | .J => chars "J"
  | .K => chars "K"
  | .L => chars "L"
  | .M => chars "M"
  | .N => chars "N"
  | .O => chars "O"
  | .P => chars "P"

/-- The spelling of a condition name (R21). -/
def Cond.token : Cond → Token
  | .AL => chars "AL"
  | .Z => chars "Z"
  | .N => chars "N"
  | .C => chars "C"

/-- The spelling of a mnemonic (R39). -/
def Mnemonic.token : Mnemonic → Token
  | .NOP => chars "NOP"
  | .LOAD => chars "LOAD"
  | .STORE => chars "STORE"
  | .MOV => chars "MOV"
  | .LDI => chars "LDI"
  | .ADD => chars "ADD"
  | .SUB => chars "SUB"
  | .CMP => chars "CMP"
  | .AND => chars "AND"
  | .OR => chars "OR"
  | .XOR => chars "XOR"
  | .NOT => chars "NOT"
  | .INC => chars "INC"
  | .DEC => chars "DEC"
  | .IN => chars "IN"
  | .OUT => chars "OUT"
  | .JMP => chars "JMP"
  | .JMPM => chars "JMPM"
  | .JMPA => chars "JMPA"
  | .JMPR => chars "JMPR"

/-- The register a token names: exact, upper case, and no default (R20). -/
def regOfToken (t : Token) : Option Reg := Reg.all.find? fun r => r.token == t

/-- The condition a token names: exact, upper case, and no default (R22). -/
def condOfToken (t : Token) : Option Cond := Cond.all.find? fun c => c.token == t

/-- The mnemonic a token spells: exact, upper case (R39). -/
def mnemonicOfToken (t : Token) : Option Mnemonic := Mnemonic.all.find? fun m => m.token == t

/-- `reg_code` on tokens (R20). -/
def regCodeOfToken (T : Tables) (t : Token) : Option (BitVec 4) := (regOfToken t).map (regCode T)

/-- `cond_code` on tokens (R22). -/
def condCodeOfToken (T : Tables) (t : Token) : Option (BitVec 2) := (condOfToken t).map (condCode T)

/-- `mnemonic_lookup` (R39): opcode name, family and mode of a token. -/
def mnemonicLookup (t : Token) : Option (OpcodeName × Family × Option Nat) :=
  (mnemonicOfToken t).map fun m => (m.opName, m.family, m.mode)

namespace Machine

/-- A token holds no whitespace character (00_scope.md section 5). -/
def isToken (T : Tables) (t : Token) : Bool := t.all fun c => !T.whitespace.contains c

/-! ## Numerals -/

/-- The value of a decimal digit (R69, `decdigit`). -/
def decDigit (c : Char) : Option Nat :=
  if '0' ≤ c ∧ c ≤ '9' then some (c.toNat - '0'.toNat) else none

/-- The value of a hexadecimal digit, either case (R69, `hexdigit`). PRESUMED by the spec (G2), unsafe (log 18). -/
def hexDigit (c : Char) : Option Nat :=
  if '0' ≤ c ∧ c ≤ '9' then some (c.toNat - '0'.toNat)
  else if 'a' ≤ c ∧ c ≤ 'f' then some (c.toNat - 'a'.toNat + 10)
  else if 'A' ≤ c ∧ c ≤ 'F' then some (c.toNat - 'A'.toNat + 10)
  else none

/-- Reads digits after those whose value is `acc`, in a base, without bound (R69). -/
def readDigits (base : Nat) (digit : Char → Option Nat) (acc : Nat) : List Char → Option Nat
  | [] => some acc
  | c :: cs =>
    match digit c with
    | none => none
    | some d => readDigits base digit (acc * base + d) cs

/-- One or more digits and nothing else (R69, `hexdigit+`, `decdigit+`). -/
def readNumeral (base : Nat) (digit : Char → Option Nat) (ds : List Char) : Option Nat :=
  if ds = [] then none else readDigits base digit 0 ds

/-- `parse_num` (R69): hexadecimal when the token begins with `0x`, else decimal. -/
def parseNum (t : Token) : Option Nat :=
  if t.take 2 = chars "0x" then readNumeral 16 hexDigit (t.drop 2) else readNumeral 10 decDigit t

/-- `dec(v)` (R92): decimal, no leading zeros, no sign. -/
def decimal (v : Nat) : Token := Nat.toDigits 10 v

/-- The binary digit of bit `k` of a raw opcode. -/
def binDigit (c : BitVec 6) (k : Nat) : Char := if c.getLsbD k then '1' else '0'

/-- `bin6` (R94): the six binary digits, most significant first. -/
def bin6 (c : BitVec 6) : Token := [5, 4, 3, 2, 1, 0].map (binDigit c)

/-! ## Arity and roles -/

/-- `arity_ok` (R64), for `n` operand tokens. -/
def arityOk (fam : Family) (n : Nat) : Bool :=
  match fam with
  | .NoOperand => n == 0
  | .RegisterALU => n == 2 || n == 3
  | .PortIO => n == 2
  | .LoadImmediate => n == 2
  | .JumpIndirect => n == 2
  | .JumpDirect => n == 2

/-- The operand tokens by role, each list in left-to-right order; a numeric token carries its field width (R66). -/
structure Roles where
  regs : List Token
  conds : List Token
  nums : List (Token × Nat)
deriving DecidableEq, Repr

/-- `roles` (R66): the role of an operand token is decided by the family and its position, never by its spelling.
The last arm is NOP's, and that of operand counts which R64 has turned away before. -/
def roles (fam : Family) (ops : List Token) : Roles :=
  match fam, ops with
  | .RegisterALU, [s, d] => ⟨[s, d], [], []⟩
  | .RegisterALU, [s, d, f] => ⟨[s, d], [], [(f, 1)]⟩
  | .PortIO, [s, d] => ⟨[s, d], [], []⟩
  | .LoadImmediate, [d, n] => ⟨[d], [], [(n, 22)]⟩
  | .JumpIndirect, [c, r] => ⟨[r], [c], []⟩
  | .JumpDirect, [c, n] => ⟨[], [c], [(n, 22)]⟩
  | _, _ => ⟨[], [], []⟩

/-- A register operand (R67, step 3). -/
def regOperand (t : Token) : Except EncodeError Reg :=
  match regOfToken t with
  | none => .error .UnknownRegister
  | some r => .ok r

/-- A condition operand (R68, step 4). -/
def condOperand (t : Token) : Except EncodeError Cond :=
  match condOfToken t with
  | none => .error .UnknownCondition
  | some c => .ok c

/-- A numeric operand of a field `width` bits wide (R70, step 5): a value that does not fit is refused, never masked. -/
def numOperand (width : Nat) (t : Token) : Except EncodeError Nat :=
  match parseNum t with
  | none => .error .InvalidImmediate
  | some v => if v > 2 ^ width - 1 then .error .ImmediateOutOfRange else .ok v

/-! ## The canonical operand tokens of each family (R92) -/

/-- `<src> <dst>`, and the flag when it is 1 (R92, R110). -/
def registerALUTokens (src dst : Reg) (flag : Nat) : List Token := src.token :: dst.token :: flagTokens flag

/-- `<src> <dst>` (R92, R130). -/
def portIOTokens (src dst : Reg) : List Token := [src.token, dst.token]

/-- `<dst> <imm>` (R92, R135). -/
def loadImmediateTokens (dst : Reg) (imm : Nat) : List Token := [dst.token, decimal imm]

/-- `<cond> <reg>` (R92, R140). -/
def jumpIndirectTokens (cond : Cond) (reg : Reg) : List Token := [cond.token, reg.token]

/-- `<cond> <imm>` (R92, R146). -/
def jumpDirectTokens (cond : Cond) (imm : Nat) : List Token := [cond.token, decimal imm]

end Machine

end Sys2Proof
end

