-- ==== Sys2Proof/Machine/Text.lean ====
section
/-! DEFINITION. The two text adapters: `tokenize` before ENC (R61) and `render` after DEC (R92, R94). -/

namespace Sys2Proof.Machine

/-- A token read so far, if it has any character. -/
def endToken (tok : Token) : List Token := if tok = [] then [] else [tok]

/-- `tokenize` with the characters `tok` of a token already read. -/
def tokenizeFrom (T : Tables) (tok : Token) : Text → List Token
  | [] => endToken tok
  | c :: cs => if T.whitespace.contains c then endToken tok ++ tokenizeFrom T [] cs else tokenizeFrom T (tok ++ [c]) cs

/-- `tokenize` (R61): the maximal runs of non-whitespace characters, in order. -/
def tokenize (T : Tables) (line : Text) : List Token := tokenizeFrom T [] line

/-- Tokens joined by single spaces (R92). -/
def joinTokens : List Token → Text
  | [] => []
  | [t] => t
  | t :: u :: ts => t ++ ' ' :: joinTokens (u :: ts)

/-- The canonical operand tokens of an instruction (R92). -/
def operandTokens : Instr → List Token
  | .nop => []
  | .load src dst flag => registerALUTokens src dst flag
  | .store src dst flag => registerALUTokens src dst flag
  | .mov src dst flag => registerALUTokens src dst flag
  | .ldi dst imm => loadImmediateTokens dst imm
  | .add src dst flag => registerALUTokens src dst flag
  | .sub src dst flag => registerALUTokens src dst flag
  | .cmp src dst flag => registerALUTokens src dst flag
  | .and src dst flag => registerALUTokens src dst flag
  | .or src dst flag => registerALUTokens src dst flag
  | .xor src dst flag => registerALUTokens src dst flag
  | .not src dst flag => registerALUTokens src dst flag
  | .inc src dst flag => registerALUTokens src dst flag
  | .dec src dst flag => registerALUTokens src dst flag
  | .portIn src dst => portIOTokens src dst
  | .portOut src dst => portIOTokens src dst
  | .jmp cond reg => jumpIndirectTokens cond reg
  | .jmpm cond reg => jumpIndirectTokens cond reg
  | .jmpa cond imm => jumpDirectTokens cond imm
  | .jmpr cond imm => jumpDirectTokens cond imm

/-- `render_tokens` (R92; R94 for `Unknown`). -/
def renderTokens : DecodedLine → List Token
  | .known i => i.mnemonic.token :: operandTokens i
  | .unknown c => [chars "???", bin6 c]

/-- `render` (R92): the canonical text. -/
def render (d : DecodedLine) : Text := joinTokens (renderTokens d)

end Sys2Proof.Machine
end

