-- ==== Sys2Proof/Machine/Encoder.lean ====
section
/-! DEFINITION. The encoder ENC (R60): `parse`, then `pack`.

`parse` reads the operands family by family; the order in which a family's reader takes its tokens is R160's priority.
`firstDefect` is R60's pseudocode of steps 1 to 5 taken literally, for the statement that `parse` fails exactly so. -/

namespace Sys2Proof.Machine

/-- Operands of the NoOperand family (R64, R105). -/
def parseNoOperand (i : Instr) (ops : List Token) : Except EncodeError Instr :=
  match ops with
  | [] => .ok i
  | _ => .error .OperandCountMismatch

/-- Operands of a RegisterALU member (R64, R66, R72, R110). -/
def parseRegisterALU (mk : Reg → Reg → Nat → Instr) (ops : List Token) : Except EncodeError Instr :=
  match ops with
  | [s, d] => do
    let src ← regOperand s
    let dst ← regOperand d
    pure (mk src dst defaultFlag)
  | [s, d, f] => do
    let src ← regOperand s
    let dst ← regOperand d
    let flag ← numOperand 1 f
    pure (mk src dst flag)
  | _ => .error .OperandCountMismatch

/-- Operands of a PortIO member (R64, R66, R72, R130). -/
def parsePortIO (mk : Reg → Reg → Instr) (ops : List Token) : Except EncodeError Instr :=
  match ops with
  | [s, d] => do
    let src ← regOperand s
    let dst ← regOperand d
    pure (mk src dst)
  | _ => .error .OperandCountMismatch

/-- Operands of LDI (R64, R66, R72, R135). -/
def parseLoadImmediate (mk : Reg → Nat → Instr) (ops : List Token) : Except EncodeError Instr :=
  match ops with
  | [d, n] => do
    let dst ← regOperand d
    let imm ← numOperand 22 n
    pure (mk dst imm)
  | _ => .error .OperandCountMismatch

/-- Operands of a JumpIndirect member (R64, R66, R72, R140): step 3 looks at the register before step 4 at the condition,
although the condition stands left of it (R68). -/
def parseJumpIndirect (mk : Cond → Reg → Instr) (ops : List Token) : Except EncodeError Instr :=
  match ops with
  | [c, r] => do
    let reg ← regOperand r
    let cond ← condOperand c
    pure (mk cond reg)
  | _ => .error .OperandCountMismatch

/-- Operands of a JumpDirect member (R64, R66, R72, R146). -/
def parseJumpDirect (mk : Cond → Nat → Instr) (ops : List Token) : Except EncodeError Instr :=
  match ops with
  | [c, n] => do
    let cond ← condOperand c
    let imm ← numOperand 22 n
    pure (mk cond imm)
  | _ => .error .OperandCountMismatch

/-- The operands of a known mnemonic (steps 2 to 6 of R60). -/
def parseOperands (m : Mnemonic) (ops : List Token) : Except EncodeError Instr :=
  match m with
  | .NOP => parseNoOperand .nop ops
  | .LOAD => parseRegisterALU .load ops
  | .STORE => parseRegisterALU .store ops
  | .MOV => parseRegisterALU .mov ops
  | .LDI => parseLoadImmediate .ldi ops
  | .ADD => parseRegisterALU .add ops
  | .SUB => parseRegisterALU .sub ops
  | .CMP => parseRegisterALU .cmp ops
  | .AND => parseRegisterALU .and ops
  | .OR => parseRegisterALU .or ops
  | .XOR => parseRegisterALU .xor ops
  | .NOT => parseRegisterALU .not ops
  | .INC => parseRegisterALU .inc ops
  | .DEC => parseRegisterALU .dec ops
  | .IN => parsePortIO .portIn ops
  | .OUT => parsePortIO .portOut ops
  | .JMP => parseJumpIndirect .jmp ops
  | .JMPM => parseJumpIndirect .jmpm ops
  | .JMPA => parseJumpDirect .jmpa ops
  | .JMPR => parseJumpDirect .jmpr ops

/-- `parse` (R60): step 1 finds the mnemonic (R63), the others follow. -/
def parse (ts : List Token) : Except EncodeError Instr :=
  match ts with
  | [] => .error .UnknownMnemonic
  | t :: ops =>
    match mnemonicOfToken t with
    | none => .error .UnknownMnemonic
    | some m => parseOperands m ops

/-- `encode` (R60): the whole behaviour of ENC. -/
def encode (T : Tables) (ts : List Token) : EncResult := (parse ts).map (pack T)

/-- Step 5's loop in R60's pseudocode. -/
def numDefect : List (Token × Nat) → Option EncodeError
  | [] => none
  | (t, width) :: rest =>
    match parseNum t with
    | none => some .InvalidImmediate
    | some v => if v > 2 ^ width - 1 then some .ImmediateOutOfRange else numDefect rest

/-- Steps 1 to 5 of R60's pseudocode, literally: the failure of the first step that fails, `none` when all pass. -/
def firstDefect (ts : List Token) : Option EncodeError :=
  match ts with
  | [] => some .UnknownMnemonic
  | t :: ops =>
    match mnemonicLookup t with
    | none => some .UnknownMnemonic
    | some (_, fam, _) =>
      if !arityOk fam ops.length then some .OperandCountMismatch
      else if (roles fam ops).regs.any fun r => (regOfToken r).isNone then some .UnknownRegister
      else if (roles fam ops).conds.any fun c => (condOfToken c).isNone then some .UnknownCondition
      else numDefect (roles fam ops).nums

end Sys2Proof.Machine
end

