-- ==== Sys2Proof/Machine/Ops.lean ====
section
/-! DEFINITION. The named operations every step and every meaning goes through:
taking the next call, giving an answer, delivering a failure, and the ports as views of an answer.

There is no exception to take and none to return from: a failure is the value of its call, nothing is saved, no mode
changes, control goes nowhere (R163), and "there is no return instruction and nothing to restore" (R164). -/

namespace Sys2Proof.Machine

/-- The call at the input ports taken away: what is left waits behind it (R30). -/
def State.take (s : State) : State := { s with calls := s.calls.tail }

/-- An answer given: it stands after every earlier one (R30). -/
def State.answer (a : Answer) (s : State) : State := { s with answers := s.answers ++ [a] }

/-- A call put in front of every other, so that the next step answers it. -/
def State.putFirst (c : Call) (s : State) : State := { s with calls := c :: s.calls }

/-- An encode failure delivered: it is the value of the call that caused it, and nothing else changes (R163, R164). -/
def State.deliverFailure (e : EncodeError) (s : State) : State := s.answer (.encoded (.error e))

/-- ENC's answer to a token line (R60). -/
def State.answerTokens (ts : List Token) (s : State) : State :=
  match encode s.tables ts with
  | .ok w => s.answer (.encoded (.ok w))
  | .error e => s.deliverFailure e

/-- DEC's answer `Known(i)` for an instruction of mnemonic `m` with canonical operand tokens `ops`:
`dec_known = 1`, `dec_instr = i`, `dec_raw_opcode` the code of the mnemonic's opcode name (R18, R85), and the canonical
text (R92). -/
def State.answerKnown (m : Mnemonic) (i : Instr) (ops : List Token) (s : State) : State :=
  s.answer (.decoded
    { line := .known i
      rawOpcode := opcodeCode s.tables m.opName
      text := joinTokens (m.token :: ops) })

/-- DEC's answer `Unknown` with its raw opcode (R88, R94): an ordinary value, not a fault. -/
def State.answerUnknown (c : BitVec 6) (s : State) : State :=
  s.answer (.decoded { line := .unknown c, rawOpcode := c, text := render (.unknown c) })

/-! ## What a call is answered with, as a function of the call alone (R13, R29) -/

/-- DEC's output for a word: its ports are combinational functions of the word and the tables (R18). -/
def decOutput (T : Tables) (w : Word) : DecOutput :=
  { line := decode T w, rawOpcode := opcodeField w, text := render (decode T w) }

/-- The answer of a call. -/
def answerOf (T : Tables) : Call → Answer
  | .line text => .encoded (encode T (tokenize T text))
  | .tokens ts => .encoded (encode T ts)
  | .word w => .decoded (decOutput T w)

/-! ## The ports, as views of a result (R18)

A port that is not meaningful is `none`: its value is unspecified and must not be read (93_implementation_defined.md U3). -/

/-- `enc_ok`. -/
def encOk : EncResult → Bool
  | .ok _ => true
  | .error _ => false

/-- `enc_word`. -/
def encWord : EncResult → Option Word
  | .ok w => some w
  | .error _ => none

/-- `enc_err`. -/
def encErr : EncResult → Option EncodeError
  | .ok _ => none
  | .error e => some e

/-- The number of a failure kind, for an implementation that needs one (R152, D4). -/
def EncodeError.number : EncodeError → Nat
  | .UnknownMnemonic => 1
  | .OperandCountMismatch => 2
  | .UnknownRegister => 3
  | .UnknownCondition => 4
  | .InvalidImmediate => 5
  | .ImmediateOutOfRange => 6

/-- `dec_known`. -/
def decKnown (d : DecOutput) : Bool :=
  match d.line with
  | .known _ => true
  | .unknown _ => false

/-- `dec_instr`. -/
def decInstr (d : DecOutput) : Option Instr :=
  match d.line with
  | .known i => some i
  | .unknown _ => none

/-- `dec_raw_opcode`. -/
def decRawOpcode (d : DecOutput) : BitVec 6 := d.rawOpcode

/-! ## Batches (R30) -/

/-- Batch encoding of lines (R30, D17). -/
def encodeBatch (T : Tables) (lines : List Text) : List EncResult := lines.map fun l => encode T (tokenize T l)

/-- Batch decoding of words (R30, D17). -/
def decodeBatch (T : Tables) (ws : List Word) : List DecodedLine := ws.map (decode T)

end Sys2Proof.Machine
end

