-- ==== Sys2Proof/Machine/JumpDirect.lean ====
section
/-! DEFINITION. The JumpDirect family (47_jump_direct.md): what the block does with JMPA and JMPR when DEC has decoded them.

The immediate is the number written; the codec computes nothing from it (R48, N1). -/

namespace Sys2Proof.Machine

/-- JMPA (R147): the decoded value, text `JMPA <cond> <imm>` with the immediate in decimal. -/
def execJmpa (cond : Cond) (imm : Nat) (s : State) : Outcome :=
  .next (s.answerKnown .JMPA (.jmpa cond imm) (jumpDirectTokens cond imm))

/-- JMPR (R148): the decoded value, text `JMPR <cond> <imm>` with the immediate in decimal. -/
def execJmpr (cond : Cond) (imm : Nat) (s : State) : Outcome :=
  .next (s.answerKnown .JMPR (.jmpr cond imm) (jumpDirectTokens cond imm))

end Sys2Proof.Machine
end

