-- ==== Sys2Proof/Machine/JumpIndirect.lean ====
section
/-! DEFINITION. The JumpIndirect family (46_jump_indirect.md): what the block does with JMP and JMPM when DEC has decoded them.

The codec records the operands; it evaluates no condition, reads no memory and goes nowhere (R25, N1). -/

namespace Sys2Proof.Machine

/-- JMP (R141): the decoded value, text `JMP <cond> <reg>`. -/
def execJmp (cond : Cond) (reg : Reg) (s : State) : Outcome :=
  .next (s.answerKnown .JMP (.jmp cond reg) (jumpIndirectTokens cond reg))

/-- JMPM (R142): the decoded value, text `JMPM <cond> <reg>`. -/
def execJmpm (cond : Cond) (reg : Reg) (s : State) : Outcome :=
  .next (s.answerKnown .JMPM (.jmpm cond reg) (jumpIndirectTokens cond reg))

end Sys2Proof.Machine
end

