-- ==== Sys2Proof/Machine/LoadImmediate.lean ====
section
/-! DEFINITION. The LoadImmediate family (45_load_immediate.md): what the block does with LDI when DEC has decoded it. -/

namespace Sys2Proof.Machine

/-- LDI (R135): the decoded value, text `LDI <dst> <imm>` with the immediate in decimal. -/
def execLdi (dst : Reg) (imm : Nat) (s : State) : Outcome :=
  .next (s.answerKnown .LDI (.ldi dst imm) (loadImmediateTokens dst imm))

end Sys2Proof.Machine
end

