-- ==== Sys2Proof/Machine/NoOperand.lean ====
section
/-! DEFINITION. The NoOperand family (42_no_operand.md): what the block does with the instruction when DEC has decoded it.

The spec gives no instruction an execution meaning (R2, 91_not_in_source.md N1), and a reader must not supply one.
Its effect in this machine is the one its rule gives under "Decoder": the decoded value and its canonical text. -/

namespace Sys2Proof.Machine

/-- NOP (R105): `Known(NoOperand NOP)`, text `NOP`. -/
def execNop (s : State) : Outcome := .next (s.answerKnown .NOP .nop [])

end Sys2Proof.Machine
end

