-- ==== Sys2Proof/Machine/PortIO.lean ====
section
/-! DEFINITION. The PortIO family (44_port_io.md): what the block does with IN and OUT when DEC has decoded them.

The block never performs I/O (R25). -/

namespace Sys2Proof.Machine

/-- IN (R131): the decoded value, text `IN <src> <dst>`. -/
def execIn (src dst : Reg) (s : State) : Outcome :=
  .next (s.answerKnown .IN (.portIn src dst) (portIOTokens src dst))

/-- OUT (R132): the decoded value, text `OUT <src> <dst>`. -/
def execOut (src dst : Reg) (s : State) : Outcome :=
  .next (s.answerKnown .OUT (.portOut src dst) (portIOTokens src dst))

end Sys2Proof.Machine
end

