-- ==== Sys2Proof/Machine/RegisterALU.lean ====
section
/-! DEFINITION. The RegisterALU family (43_register_alu.md): what the block does with each member when DEC has decoded it.

The members differ only in the opcode (R110); no status flag is written (R16), and nothing is computed (R2, N1). -/

namespace Sys2Proof.Machine

/-- LOAD (R111): the decoded value, text `LOAD <src> <dst>`, with a trailing `1` when the flag is 1. -/
def execLoad (src dst : Reg) (flag : Nat) (s : State) : Outcome :=
  .next (s.answerKnown .LOAD (.load src dst flag) (registerALUTokens src dst flag))

/-- STORE (R112): the decoded value, text `STORE <src> <dst>`, with a trailing `1` when the flag is 1. -/
def execStore (src dst : Reg) (flag : Nat) (s : State) : Outcome :=
  .next (s.answerKnown .STORE (.store src dst flag) (registerALUTokens src dst flag))

/-- MOV (R113): the decoded value, text `MOV <src> <dst>`, with a trailing `1` when the flag is 1. -/
def execMov (src dst : Reg) (flag : Nat) (s : State) : Outcome :=
  .next (s.answerKnown .MOV (.mov src dst flag) (registerALUTokens src dst flag))

/-- ADD (R114): the decoded value, text `ADD <src> <dst>`, with a trailing `1` when the flag is 1. -/
def execAdd (src dst : Reg) (flag : Nat) (s : State) : Outcome :=
  .next (s.answerKnown .ADD (.add src dst flag) (registerALUTokens src dst flag))

/-- SUB (R115): the decoded value, text `SUB <src> <dst>`, with a trailing `1` when the flag is 1. -/
def execSub (src dst : Reg) (flag : Nat) (s : State) : Outcome :=
  .next (s.answerKnown .SUB (.sub src dst flag) (registerALUTokens src dst flag))

/-- CMP (R116): the decoded value, text `CMP <src> <dst>`, with a trailing `1` when the flag is 1. -/
def execCmp (src dst : Reg) (flag : Nat) (s : State) : Outcome :=
  .next (s.answerKnown .CMP (.cmp src dst flag) (registerALUTokens src dst flag))

/-- AND (R117): the decoded value, text `AND <src> <dst>`, with a trailing `1` when the flag is 1. -/
def execAnd (src dst : Reg) (flag : Nat) (s : State) : Outcome :=
  .next (s.answerKnown .AND (.and src dst flag) (registerALUTokens src dst flag))

/-- OR (R118): the decoded value, text `OR <src> <dst>`, with a trailing `1` when the flag is 1. -/
def execOr (src dst : Reg) (flag : Nat) (s : State) : Outcome :=
  .next (s.answerKnown .OR (.or src dst flag) (registerALUTokens src dst flag))

/-- XOR (R119): the decoded value, text `XOR <src> <dst>`, with a trailing `1` when the flag is 1. -/
def execXor (src dst : Reg) (flag : Nat) (s : State) : Outcome :=
  .next (s.answerKnown .XOR (.xor src dst flag) (registerALUTokens src dst flag))

/-- NOT (R120): the decoded value, text `NOT <src> <dst>`, with a trailing `1` when the flag is 1. -/
def execNot (src dst : Reg) (flag : Nat) (s : State) : Outcome :=
  .next (s.answerKnown .NOT (.not src dst flag) (registerALUTokens src dst flag))

/-- INC (R121): the decoded value, text `INC <src> <dst>`, with a trailing `1` when the flag is 1. -/
def execInc (src dst : Reg) (flag : Nat) (s : State) : Outcome :=
  .next (s.answerKnown .INC (.inc src dst flag) (registerALUTokens src dst flag))

/-- DEC (R122): the decoded value, text `DEC <src> <dst>`, with a trailing `1` when the flag is 1. -/
def execDec (src dst : Reg) (flag : Nat) (s : State) : Outcome :=
  .next (s.answerKnown .DEC (.dec src dst flag) (registerALUTokens src dst flag))

end Sys2Proof.Machine
end

