-- ==== Sys2Proof/Machine/Dispatch.lean ====
section
/-! DEFINITION. The one dispatch: what the block does with a decoded instruction, one arm per constructor. -/

namespace Sys2Proof.Machine

/-- The effect of a decoded instruction (R105 to R148, "Decoder"): DEC's answer.
The block executes nothing (R2, N1), so it is no processor's effect: DEDUCED, safe (log 9). -/
def exec (i : Instr) (s : State) : Host.Outcome State Fault Refusal :=
  match i with
  | .nop => Sys2Proof.Machine.execNop s
  | .load src dst flag => Sys2Proof.Machine.execLoad src dst flag s
  | .store src dst flag => Sys2Proof.Machine.execStore src dst flag s
  | .mov src dst flag => Sys2Proof.Machine.execMov src dst flag s
  | .ldi dst imm => Sys2Proof.Machine.execLdi dst imm s
  | .add src dst flag => Sys2Proof.Machine.execAdd src dst flag s
  | .sub src dst flag => Sys2Proof.Machine.execSub src dst flag s
  | .cmp src dst flag => Sys2Proof.Machine.execCmp src dst flag s
  | .and src dst flag => Sys2Proof.Machine.execAnd src dst flag s
  | .or src dst flag => Sys2Proof.Machine.execOr src dst flag s
  | .xor src dst flag => Sys2Proof.Machine.execXor src dst flag s
  | .not src dst flag => Sys2Proof.Machine.execNot src dst flag s
  | .inc src dst flag => Sys2Proof.Machine.execInc src dst flag s
  | .dec src dst flag => Sys2Proof.Machine.execDec src dst flag s
  | .portIn src dst => Sys2Proof.Machine.execIn src dst s
  | .portOut src dst => Sys2Proof.Machine.execOut src dst s
  | .jmp cond reg => Sys2Proof.Machine.execJmp cond reg s
  | .jmpm cond reg => Sys2Proof.Machine.execJmpm cond reg s
  | .jmpa cond imm => Sys2Proof.Machine.execJmpa cond imm s
  | .jmpr cond imm => Sys2Proof.Machine.execJmpr cond imm s

end Sys2Proof.Machine
end

