-- ==== Sys2Proof/Machine/Step.lean ====
section
/-! DEFINITION. One step: the block answers the first call that waits.

One call is one step, in the order the host made the calls: the block is "Single-threaded, synchronous, no suspension
points" (R166), and a batch is processed sequentially (R30; log 1). -/

namespace Sys2Proof.Machine

/-- One step of the block. With no call waiting nothing happens: there is no input, so no output (R13, R18): DESIGN CHOICE, safe (log 1).
A text line is split and encoded (R61, R60), a token line encoded (R60), a word decoded (R86): a `Known` instruction has
the effect its rule gives, an `Unknown` is answered as the ordinary value it is (R88). -/
def step (s : State) : Host.Outcome State Fault Refusal :=
  match s.calls with
  | [] => .next s
  | .line text :: _ => .next (s.take.answerTokens (tokenize s.tables text))
  | .tokens ts :: _ => .next (s.take.answerTokens ts)
  | .word w :: _ =>
    match decode s.tables w with
    | .known i => exec i s.take
    | .unknown c => .next (s.take.answerUnknown c)

/-- The state in which the very next step answers the word `w`: the word is the first call. -/
def State.withFetchWord (s : State) (nbits w : Nat) : State := s.putFirst (.word (tableWord nbits w))

end Sys2Proof.Machine
end

