-- ==== Sys2Proof/Safety.lean ====
section
/-! DEFINITION. What a safe run is, in the terms the claims use: every answer given is one the spec allows. -/

namespace Sys2Proof.Machine

/-- DEC's output is consistent: its three parts say the same instruction, and its text assembles back.
For `Known(i)`: `i` is well-formed (R36), the raw opcode is that of its name (R18), and the canonical text encodes to the
word `pack(i)` (R97).
For `Unknown{c}`: `c` is an unassigned opcode (R88), it is the raw opcode, and the text encodes to nothing (R94). -/
def DecOutput.Sound (T : Tables) (d : DecOutput) : Prop :=
  match d.line with
  | .known i =>
    i.WellFormed ∧ opcodeName T d.rawOpcode = some i.opName ∧ encode T (tokenize T d.text) = .ok (pack T i)
  | .unknown c =>
    opcodeName T c = none ∧ d.rawOpcode = c ∧ encode T (tokenize T d.text) = .error .UnknownMnemonic

/-- An answer the spec allows: a word ENC gave is canonical (R52), an output of DEC is consistent. -/
def Answer.Sound (T : Tables) : Answer → Prop
  | .encoded (.ok w) => canonical T w = true
  | .encoded (.error _) => True
  | .decoded d => d.Sound T

/-- A call the host can make: the tokens of a line hold no whitespace (00_scope.md section 5). -/
def Call.Proper (T : Tables) : Call → Prop
  | .tokens ts => ∀ t ∈ ts, isToken T t = true
  | .line _ => True
  | .word _ => True

/-- The invariant of the machine: every answer given is sound, every call waiting is proper. -/
structure State.Inv (s : State) : Prop where
  answers_sound : ∀ a ∈ s.answers, a.Sound s.tables
  calls_proper : ∀ c ∈ s.calls, c.Proper s.tables

end Sys2Proof.Machine
end

