-- ==== Sys2Proof/Certificates/Slice0/Obligations.lean ====
section
/-! DEFINITION. The statements for the provers, from the numbered rules of spec/.

Every statement holds for an arbitrary configuration `T : Tables` (R98) unless it names the default one.
The machine has no registers with contents, no flags, no program counter and no memory (R14, R15, R16, R25), so a frame
speaks of all there is: the tables, the calls waiting and the answers given before. -/

namespace Sys2Proof.Spec

open Sys2Proof Sys2Proof.Machine

/-- The RegisterALU members (R36): mnemonic, opcode name, instruction. -/
def aluMembers : List (Mnemonic × OpcodeName × (Reg → Reg → Nat → Instr)) :=
  [(.LOAD, .LOAD, .load), (.STORE, .STORE, .store), (.MOV, .MOV, .mov), (.ADD, .ADD, .add), (.SUB, .SUB, .sub),
   (.CMP, .CMP, .cmp), (.AND, .AND, .and), (.OR, .OR, .or), (.XOR, .XOR, .xor), (.NOT, .NOT, .not), (.INC, .INC, .inc),
   (.DEC, .DEC, .dec)]

/-- The PortIO members (R36): mnemonic, opcode name, instruction. -/
def portMembers : List (Mnemonic × OpcodeName × (Reg → Reg → Instr)) :=
  [(.IN, .IN, .portIn), (.OUT, .OUT, .portOut)]

/-- R39's table, row by row: token, opcode name, family, mode. -/
def mnemonicRows : List (Token × OpcodeName × Family × Option Nat) :=
  [(chars "NOP", .NOP, .NoOperand, none), (chars "LOAD", .LOAD, .RegisterALU, none),
   (chars "STORE", .STORE, .RegisterALU, none), (chars "MOV", .MOV, .RegisterALU, none),
   (chars "LDI", .LDI, .LoadImmediate, none), (chars "ADD", .ADD, .RegisterALU, none),
   (chars "SUB", .SUB, .RegisterALU, none), (chars "CMP", .CMP, .RegisterALU, none),
   (chars "AND", .AND, .RegisterALU, none), (chars "OR", .OR, .RegisterALU, none),
   (chars "XOR", .XOR, .RegisterALU, none), (chars "NOT", .NOT, .RegisterALU, none),
   (chars "INC", .INC, .RegisterALU, none), (chars "DEC", .DEC, .RegisterALU, none),
   (chars "IN", .IN, .PortIO, none), (chars "OUT", .OUT, .PortIO, none), (chars "JMP", .JMP, .JumpIndirect, some 0),
   (chars "JMPM", .JMP, .JumpIndirect, some 1), (chars "JMPA", .JMP, .JumpDirect, some 2),
   (chars "JMPR", .JMP, .JumpDirect, some 3)]

/-- The operand counts a family admits (R64). -/
def operandCounts : Family → List Nat
  | .NoOperand => [0]
  | .RegisterALU => [2, 3]
  | .PortIO => [2]
  | .LoadImmediate => [2]
  | .JumpIndirect => [2]
  | .JumpDirect => [2]

/-- A line whose token 0 spells the mnemonic `m` and whose operand tokens are `ops`. -/
def IsLine (ts : List Token) (m : Mnemonic) (ops : List Token) : Prop :=
  ∃ t, ts = t :: ops ∧ mnemonicOfToken t = some m

/-- The state after one answer of DEC's: nothing else changed. -/
def afterDecoded (s : State) (line : DecodedLine) (rawOpcode : BitVec 6) (text : Text) : State :=
  { s with answers := s.answers ++ [.decoded { line := line, rawOpcode := rawOpcode, text := text }] }

/-- The value of a hexadecimal digit of either case: its place in `0123456789abcdef`. -/
def hexValue (c : Char) : Nat := (chars "0123456789abcdef").idxOf c.toLower

/-- `decode` of the word agrees with the instruction, and `pack` gives the word back. -/
def Decodes (w : Word) (i : Instr) : Prop := decode Tables.default w = .known i ∧ pack Tables.default i = w

end Sys2Proof.Spec

open Sys2Proof Sys2Proof.Machine Sys2Proof.Spec

/-! ## The tables and the Format Catalog -/

/-- R98: the opcode space partition and the bijectivity of the three tables, in every configuration. -/
def Obligations.OpcodePartitionAndTableBijectivity : Prop :=
  ∀ T : Tables,
    ((List.range 64).filter fun c => (opcodeName T (BitVec.ofNat 6 c)).isSome).length = 17 ∧
    (∀ c, opcodeName T c = none → ∀ low : BitVec 26, decode T (c ++ low) = .unknown c) ∧
    (∀ op, opcodeName T (opcodeCode T op) = some op) ∧
    (∀ c op, opcodeName T c = some op → opcodeCode T op = c) ∧
    (∀ r, regName T (regCode T r) = r) ∧ (∀ c, regCode T (regName T c) = c) ∧
    (∀ x, condName T (condCode T x) = x) ∧ (∀ c, condCode T (condName T c) = c)

/-- R20 with decisions D2 and D5 (logs 4 and 7): `reg_code` knows exactly the one-character tokens "A" to "P", it and `reg_name` are
inverse in every configuration, and under the default the code is the letter's place in the alphabet. -/
def Obligations.RegisterNamesExact : Prop :=
  (∀ T t, (regCodeOfToken T t).isSome = true ↔ ∃ c : Char, t = [c] ∧ 'A' ≤ c ∧ c ≤ 'P') ∧
  (∀ T c, regCodeOfToken T (regName T c).token = some c) ∧
  (∀ T t c, regCodeOfToken T t = some c → (regName T c).token = t) ∧
  (∀ (c : Char) (k : BitVec 4), regCodeOfToken Tables.default [c] = some k → k.toNat = c.toNat - 65)

/-- R22 with decisions D3 and D5 (logs 4 and 7): `cond_code` knows exactly AL, Z, N and C, and it and `cond_name` are inverse in every
configuration. -/
def Obligations.ConditionNamesExact : Prop :=
  (∀ T t, (condCodeOfToken T t).isSome = true ↔ t ∈ [chars "AL", chars "Z", chars "N", chars "C"]) ∧
  (∀ T c, condCodeOfToken T (condName T c).token = some c) ∧
  (∀ T t c, condCodeOfToken T t = some c → (condName T c).token = t) ∧
  [chars "AL", chars "Z", chars "N", chars "C"].map (condCodeOfToken Tables.default) = [some 0, some 1, some 2, some 3]

/-- R39 with decision D5 (log 7): `mnemonic_lookup` gives each of the 20 tokens its row, knows no other token, and no two rows
have the same opcode name and mode. -/
def Obligations.MnemonicLookupIsTheTable : Prop :=
  (∀ t op fam mode, mnemonicLookup t = some (op, fam, mode) ↔ (t, op, fam, mode) ∈ mnemonicRows) ∧
  (mnemonicRows.map fun r => (r.2.1, r.2.2.2)).Nodup ∧ mnemonicRows.length = 20

/-- R40 with decision D1 (log 4): the default opcode numbers, and in every configuration the unassigned values are 17 to 63. -/
def Obligations.OpcodeNumbers : Prop :=
  (∀ op, (opcodeCode Tables.default op).toNat = OpcodeName.all.idxOf op) ∧
  (∀ T c, opcodeName T c = none ↔ 17 ≤ c.toNat) ∧
  (∀ T, opcodeCode T .NOP = 0 ∧ opcodeCode T .ADD = 5)

/-- R41: in every family each of the 32 bits lies in exactly one field, or is unused and lies in none; the flag is bit
17 and the mode bits 1 to 0 (90_conflicts.md C2). -/
def Obligations.LayoutsPartitionTheWord : Prop :=
  (∀ fam : Family, ∀ k < 32,
    (fam.fields.filter fun f => f.lo ≤ k && k ≤ f.hi).length + (if fam.unusedBit k then 1 else 0) = 1) ∧
  (∀ fam : Family, ∀ f ∈ fam.fields, f.name = .flag → f.hi = 17 ∧ f.lo = 17) ∧
  (∀ fam : Family, ∀ f ∈ fam.fields, f.name = .mode → f.hi = 1 ∧ f.lo = 0)

/-! ## Packing and unpacking -/

/-- R42: NoOperand. That the bits below the opcode are not read is decision D9 (log 6). -/
def Obligations.NoOperandPackUnpack : Prop :=
  ∀ T : Tables,
    (pack T .nop).toNat = (opcodeCode T .NOP).toNat <<< 26 ∧ pack T .nop = 0x00000000#32 ∧
    ∀ w : Word, opcodeName T (w.extractLsb 31 26) = some .NOP → decode T w = .known .nop

/-- R43: RegisterALU, for each of its twelve members. That bits 16 to 0 are not read is decision D9 (log 6). -/
def Obligations.RegisterALUPackUnpack : Prop :=
  ∀ (T : Tables), ∀ r ∈ aluMembers,
    (∀ src dst flag, flag ≤ 1 →
      (pack T (r.2.2 src dst flag)).toNat =
        (opcodeCode T r.2.1).toNat <<< 26 ||| (regCode T src).toNat <<< 22 ||| (regCode T dst).toNat <<< 18 |||
          flag <<< 17 ∧
      (pack T (r.2.2 src dst flag)).extractLsb 16 0 = 0) ∧
    ∀ w : Word, opcodeName T (w.extractLsb 31 26) = some r.2.1 →
      decode T w = .known
        (r.2.2 (regName T (w.extractLsb 25 22)) (regName T (w.extractLsb 21 18)) (w.extractLsb 17 17).toNat)

/-- R44: PortIO, for IN and OUT; bit 17 is no flag here. That bits 17 to 0 are not read is decision D9 (log 6). -/
def Obligations.PortIOPackUnpack : Prop :=
  ∀ (T : Tables), ∀ r ∈ portMembers,
    (∀ src dst,
      (pack T (r.2.2 src dst)).toNat =
        (opcodeCode T r.2.1).toNat <<< 26 ||| (regCode T src).toNat <<< 22 ||| (regCode T dst).toNat <<< 18 ∧
      (pack T (r.2.2 src dst)).extractLsb 17 0 = 0) ∧
    ∀ w : Word, opcodeName T (w.extractLsb 31 26) = some r.2.1 →
      decode T w = .known (r.2.2 (regName T (w.extractLsb 25 22)) (regName T (w.extractLsb 21 18)))

/-- R45: LoadImmediate; every bit is a field bit, so every word with the opcode is the packing of some LDI. -/
def Obligations.LoadImmediatePackUnpack : Prop :=
  ∀ T : Tables,
    (∀ dst imm, imm ≤ 2 ^ 22 - 1 →
      (pack T (.ldi dst imm)).toNat = (opcodeCode T .LDI).toNat <<< 26 ||| (regCode T dst).toNat <<< 22 ||| imm) ∧
    ∀ w : Word, opcodeName T (w.extractLsb 31 26) = some .LDI →
      decode T w = .known (.ldi (regName T (w.extractLsb 25 22)) (w.extractLsb 21 0).toNat) ∧
      ∃ dst imm, imm ≤ 2 ^ 22 - 1 ∧ pack T (.ldi dst imm) = w

/-- R46: JumpIndirect and JumpDirect. That bits 19 to 2 of the former are not read is decision D9 (log 6). -/
def Obligations.JumpPackUnpack : Prop :=
  ∀ T : Tables,
    (∀ r ∈ [(Instr.jmp, 0), (Instr.jmpm, 1)], ∀ cond reg,
      (pack T (r.1 cond reg)).toNat =
        (opcodeCode T .JMP).toNat <<< 26 ||| (regCode T reg).toNat <<< 22 ||| (condCode T cond).toNat <<< 20 ||| r.2 ∧
      (pack T (r.1 cond reg)).extractLsb 19 2 = 0 ∧
      ((pack T (r.1 cond reg)).extractLsb 1 0).toNat = r.2) ∧
    (∀ r ∈ [(Instr.jmpa, 0), (Instr.jmpr, 1)], ∀ cond imm, imm ≤ 2 ^ 22 - 1 →
      (pack T (r.1 cond imm)).toNat =
        (opcodeCode T .JMP).toNat <<< 26 ||| (condCode T cond).toNat <<< 24 ||| imm <<< 2 ||| 0b10 ||| r.2 ∧
      ((pack T (r.1 cond imm)).extractLsb 1 0).toNat = 2 + r.2) ∧
    ∀ w : Word, opcodeName T (w.extractLsb 31 26) = some .JMP →
      (w.extractLsb 1 0 = 0b00#2 →
        decode T w = .known (.jmp (condName T (w.extractLsb 21 20)) (regName T (w.extractLsb 25 22)))) ∧
      (w.extractLsb 1 0 = 0b01#2 →
        decode T w = .known (.jmpm (condName T (w.extractLsb 21 20)) (regName T (w.extractLsb 25 22)))) ∧
      (w.extractLsb 1 0 = 0b10#2 →
        decode T w = .known (.jmpa (condName T (w.extractLsb 25 24)) (w.extractLsb 23 2).toNat)) ∧
      (w.extractLsb 1 0 = 0b11#2 →
        decode T w = .known (.jmpr (condName T (w.extractLsb 25 24)) (w.extractLsb 23 2).toNat))

/-- R89: the mode picks the family and the member within the jump pair, a JMP word is always `Known`, and under any other
opcode the mode bits play no part in choosing the family. -/
def Obligations.JumpModeDispatch : Prop :=
  ∀ (T : Tables) (w : Word),
    (opcodeName T (w.extractLsb 31 26) = some .JMP →
      (w.getLsbD 1 = false → familyOfWord T w = some .JumpIndirect ∧
        ∃ c r, decode T w = .known (if w.getLsbD 0 then .jmpm c r else .jmp c r)) ∧
      (w.getLsbD 1 = true → familyOfWord T w = some .JumpDirect ∧
        ∃ c n, decode T w = .known (if w.getLsbD 0 then .jmpr c n else .jmpa c n))) ∧
    (opcodeName T (w.extractLsb 31 26) ≠ some .JMP →
      ∀ w' : Word, w'.extractLsb 31 26 = w.extractLsb 31 26 → familyOfWord T w' = familyOfWord T w)

/-- R87: nothing but `w[31:26]` decides between `Known` and `Unknown`, and the family is the catalog's for that opcode.
Of R88: the 47 unassigned values give `Unknown` with that opcode, and the text of an `Unknown` begins with `???`. -/
def Obligations.OpcodeFieldDecidesUnknown : Prop :=
  ∀ (T : Tables) (w : Word),
    (opcodeName T (w.extractLsb 31 26) = none ↔ 17 ≤ (w.extractLsb 31 26).toNat) ∧
    (opcodeName T (w.extractLsb 31 26) = none → decode T w = .unknown (w.extractLsb 31 26)) ∧
    (∀ op, opcodeName T (w.extractLsb 31 26) = some op →
      ∃ i, decode T w = .known i ∧ i.opName = op ∧ familyOfWord T w = some i.family) ∧
    (∀ c, (render (.unknown c)).take 3 = chars "???")

/-- Words written out bit by bit from R41's layouts and R40's default numbers (D1, D2, D3; log 4), one per family and jump member. -/
def Obligations.WordsDecodeAsWritten : Prop :=
  Decodes 0b00000000000000000000000000000000#32 .nop ∧
  Decodes 0b00010101100111000000000000000000#32 (.add .G .H 0) ∧
  Decodes 0b00110100110100100000000000000000#32 (.dec .D .E 1) ∧
  Decodes 0b00111011010010000000000000000000#32 (.portIn .N .C) ∧
  Decodes 0b00010011110000000000000011111111#32 (.ldi .P 255) ∧
  Decodes 0b01000000101100000000000000000000#32 (.jmp .C .C) ∧
  Decodes 0b01000001111000000000000000000001#32 (.jmpm .N .H) ∧
  Decodes 0b01000001000000000000000110010010#32 (.jmpa .Z 100) ∧
  Decodes 0b01000011000000000000000000101011#32 (.jmpr .C 10)

/-- R95: decoding the packing of a well-formed instruction gives it back, for every instruction and every operand value;
with the rule's three examples. -/
def Obligations.DecodeOfPackIsIdentity : Prop :=
  (∀ (T : Tables) (i : Instr), i.WellFormed → decode T (pack T i) = .known i) ∧
  ∀ T : Tables,
    (∃ w, encode T [chars "LDI", chars "A", chars "4194303"] = .ok w ∧ decode T w = .known (.ldi .A 4194303)) ∧
    (∃ w, encode T [chars "ADD", chars "A", chars "B"] = .ok w ∧ render (decode T w) = chars "ADD A B") ∧
    (∃ w, encode T [chars "JMPR", chars "C", chars "10"] = .ok w ∧ render (decode T w) = chars "JMPR C 10")

/-- R96 (derived there from R42 to R46 and R51; D9, log 6): `pack` after `decode` clears the unused bits and keeps every other bit,
it is the identity exactly on canonical words, and decoding it again changes nothing. -/
def Obligations.PackOfDecodeClearsUnusedBits : Prop :=
  ∀ (T : Tables) (w : Word) (i : Instr), decode T w = .known i →
    (∀ k < 32, (pack T i).getLsbD k = (w.getLsbD k && !i.family.unusedBit k)) ∧
    (pack T i = w ↔ canonical T w = true) ∧ decode T (pack T i) = decode T w

/-- R51 with decision D9 (log 6): a 1 in an unused bit changes nothing on decoding, and the encoder writes none. -/
def Obligations.UnusedBitsIgnoredAndZero : Prop :=
  ∀ (T : Tables) (i : Instr) (k : Nat), k < 32 → i.family.unusedBit k = true →
    (i.WellFormed → (pack T i).getLsbD k = false) ∧
    ∀ w : Word, decode T w = .known i → decode T (w ^^^ BitVec.twoPow 32 k) = .known i

/-- R90, R49 and R36: what DEC returns is well-formed, of the family its word selects, and carries in each field of the
catalog's layout exactly the word's bits. -/
def Obligations.DecodedFieldsAreTheWordsBits : Prop :=
  ∀ (T : Tables) (w : Word) (i : Instr), decode T w = .known i →
    i.WellFormed ∧ familyOfWord T w = some i.family ∧
    ∀ f ∈ i.family.fields, i.fieldValue T f.name = some ((w.toNat >>> f.lo) % 2 ^ (f.hi - f.lo + 1))

/-- R73: `pack` puts each field of a well-formed instruction in its place in the catalog's layout, whole, and two
well-formed instructions never share a word. -/
def Obligations.PackPlacesFieldsInjectively : Prop :=
  ∀ (T : Tables) (i : Instr), i.WellFormed →
    (∀ f ∈ i.family.fields,
      i.fieldValue T f.name = some (((pack T i).toNat >>> f.lo) % 2 ^ (f.hi - f.lo + 1))) ∧
    ∀ j : Instr, j.WellFormed → pack T i = pack T j → i = j

/-- R52 and R76 (derived there; D9, log 6): the canonical words are exactly the words the encoder produces, and exactly the packings of well-formed
instructions. -/
def Obligations.CanonicalWordsAreTheEncodersImage : Prop :=
  ∀ (T : Tables) (w : Word),
    (canonical T w = true ↔ ∃ ts, (∀ t ∈ ts, isToken T t = true) ∧ encode T ts = .ok w) ∧
    (canonical T w = true ↔ ∃ i : Instr, i.WellFormed ∧ pack T i = w)

/-! ## The encoder and its failures -/

/-- R60 and R160 with decision D7 (log 8): `parse` fails exactly as R60's pseudocode of steps 1 to 5 does, with the failure of
the earliest step that fails. -/
def Obligations.ParseFailsAtTheFirstDefect : Prop :=
  ∀ (ts : List Token) (e : EncodeError), parse ts = .error e ↔ firstDefect ts = some e

/-- R153 with decisions D5 and D8 (log 7): when a line fails with `UnknownMnemonic`, and the rule's examples. -/
def Obligations.UnknownMnemonicExactly : Prop :=
  ∀ T : Tables,
    (∀ ts, encode T ts = .error .UnknownMnemonic ↔ ts = [] ∨ ∃ t ops, ts = t :: ops ∧ t ∉ mnemonicRows.map (·.1)) ∧
    encode T [chars "FOO", chars "A", chars "B"] = .error .UnknownMnemonic ∧
    encode T [chars "add", chars "A", chars "B"] = .error .UnknownMnemonic ∧
    encode T [chars "JMPX", chars "Z", chars "A"] = .error .UnknownMnemonic ∧
    encode T [chars "???", chars "010001"] = .error .UnknownMnemonic ∧
    encode T [] = .error .UnknownMnemonic

/-- R154: when a line fails with `OperandCountMismatch`, that every mnemonic can raise it, and the rule's examples. -/
def Obligations.OperandCountMismatchExactly : Prop :=
  ∀ T : Tables,
    (∀ ts, encode T ts = .error .OperandCountMismatch ↔
      ∃ m ops, IsLine ts m ops ∧ ops.length ∉ operandCounts m.family) ∧
    (∀ m : Mnemonic, ∃ ops, encode T (m.token :: ops) = .error .OperandCountMismatch) ∧
    encode T [chars "MOV", chars "A"] = .error .OperandCountMismatch ∧
    encode T [chars "NOP", chars "A"] = .error .OperandCountMismatch ∧
    encode T [chars "ADD", chars "A", chars "B", chars "1", chars "1"] = .error .OperandCountMismatch ∧
    encode T [chars "IN", chars "A", chars "B", chars "0"] = .error .OperandCountMismatch ∧
    encode T [chars "LDI", chars "C"] = .error .OperandCountMismatch ∧
    encode T [chars "JMP", chars "A"] = .error .OperandCountMismatch ∧
    encode T [chars "JMPA", chars "100"] = .error .OperandCountMismatch

/-- R155 with decisions D5 and D7 (logs 7 and 8): when a line fails with `UnknownRegister`, which mnemonics can raise it, and
the rule's examples. That a bad register outranks a bad condition (`JMP X Q`) is D7. -/
def Obligations.UnknownRegisterExactly : Prop :=
  ∀ T : Tables,
    (∀ ts, encode T ts = .error .UnknownRegister ↔
      ∃ m ops, IsLine ts m ops ∧ ops.length ∈ operandCounts m.family ∧
        ∃ t ∈ (roles m.family ops).regs, regCodeOfToken T t = none) ∧
    (∀ m : Mnemonic, (∃ ops, encode T (m.token :: ops) = .error .UnknownRegister) ↔
      m.family ∈ [.RegisterALU, .PortIO, .LoadImmediate, .JumpIndirect]) ∧
    encode T [chars "ADD", chars "Q", chars "B"] = .error .UnknownRegister ∧
    encode T [chars "ADD", chars "A", chars "b"] = .error .UnknownRegister ∧
    encode T [chars "LDI", chars "5", chars "C"] = .error .UnknownRegister ∧
    encode T [chars "JMP", chars "Z", chars "100"] = .error .UnknownRegister ∧
    encode T [chars "OUT", chars "A", chars "AL"] = .error .UnknownRegister

/-- R156 with decisions D5 and D7 (logs 7 and 8): when a line fails with `UnknownCondition`, which mnemonics can raise it, and the rule's examples. -/
def Obligations.UnknownConditionExactly : Prop :=
  ∀ T : Tables,
    (∀ ts, encode T ts = .error .UnknownCondition ↔
      ∃ m ops, IsLine ts m ops ∧ ops.length ∈ operandCounts m.family ∧
        (∀ t ∈ (roles m.family ops).regs, regCodeOfToken T t ≠ none) ∧
        ∃ t ∈ (roles m.family ops).conds, condCodeOfToken T t = none) ∧
    (∀ m : Mnemonic, (∃ ops, encode T (m.token :: ops) = .error .UnknownCondition) ↔
      m ∈ [.JMP, .JMPM, .JMPA, .JMPR]) ∧
    encode T [chars "JMP", chars "X", chars "A"] = .error .UnknownCondition ∧
    encode T [chars "JMPA", chars "al", chars "5"] = .error .UnknownCondition ∧
    encode T [chars "JMPR", chars "NZ", chars "1"] = .error .UnknownCondition ∧
    encode T [chars "JMPM", chars "A", chars "A"] = .error .UnknownCondition

/-- R157 with decisions D6 and D7 (logs 7 and 8): when a line fails with `InvalidImmediate`, which mnemonics can raise it, and the rule's examples. -/
def Obligations.InvalidImmediateExactly : Prop :=
  ∀ T : Tables,
    (∀ ts, encode T ts = .error .InvalidImmediate ↔
      ∃ m ops, IsLine ts m ops ∧ ops.length ∈ operandCounts m.family ∧
        (∀ t ∈ (roles m.family ops).regs, regCodeOfToken T t ≠ none) ∧
        (∀ t ∈ (roles m.family ops).conds, condCodeOfToken T t ≠ none) ∧
        ∃ n ∈ (roles m.family ops).nums, parseNum n.1 = none) ∧
    (∀ m : Mnemonic, (∃ ops, encode T (m.token :: ops) = .error .InvalidImmediate) ↔
      m.family ∈ [.RegisterALU, .LoadImmediate, .JumpDirect]) ∧
    (∀ m : Mnemonic, m.family = .RegisterALU → ∀ s d, encode T [m.token, s, d] ≠ .error .InvalidImmediate) ∧
    encode T [chars "LDI", chars "C", chars "12abc"] = .error .InvalidImmediate ∧
    encode T [chars "LDI", chars "C", chars "-5"] = .error .InvalidImmediate ∧
    encode T [chars "LDI", chars "C", chars "0x"] = .error .InvalidImmediate ∧
    encode T [chars "LDI", chars "C", chars "0XFF"] = .error .InvalidImmediate ∧
    encode T [chars "JMPA", chars "Z", chars "A"] = .error .InvalidImmediate ∧
    encode T [chars "ADD", chars "A", chars "B", chars "x"] = .error .InvalidImmediate

/-- R158 with decisions D6 and D7 (logs 7 and 8): when a line fails with `ImmediateOutOfRange` (so a value is never masked), and the rule's examples. -/
def Obligations.ImmediateOutOfRangeExactly : Prop :=
  ∀ T : Tables,
    (∀ ts, encode T ts = .error .ImmediateOutOfRange ↔
      ∃ m ops, IsLine ts m ops ∧ ops.length ∈ operandCounts m.family ∧
        (∀ t ∈ (roles m.family ops).regs, regCodeOfToken T t ≠ none) ∧
        (∀ t ∈ (roles m.family ops).conds, condCodeOfToken T t ≠ none) ∧
        ∃ n ∈ (roles m.family ops).nums, ∃ v, parseNum n.1 = some v ∧
          (if m.family = .RegisterALU then 1 else 4194303) < v) ∧
    encode T [chars "LDI", chars "A", chars "4194304"] = .error .ImmediateOutOfRange ∧
    encode T [chars "JMPA", chars "C", chars "4194304"] = .error .ImmediateOutOfRange ∧
    encode T [chars "LDI", chars "B", chars "0x400000"] = .error .ImmediateOutOfRange ∧
    encode T [chars "ADD", chars "A", chars "B", chars "2"] = .error .ImmediateOutOfRange ∧
    encode T [chars "LDI", chars "C", chars "99999999999999999999999999"] = .error .ImmediateOutOfRange

/-- The "Encoder" clauses of R105, R110, R130, R135, R140 and R146: every line of the family's shape whose names are
known and whose number fits encodes to the packing of the instruction it writes. -/
def Obligations.ProperLinesEncode : Prop :=
  ∀ T : Tables,
    encode T [chars "NOP"] = .ok (pack T .nop) ∧
    (∀ r ∈ aluMembers, ∀ s d : Reg,
      encode T [r.1.token, s.token, d.token] = .ok (pack T (r.2.2 s d 0)) ∧
      ∀ t f, parseNum t = some f → f ≤ 1 →
        encode T [r.1.token, s.token, d.token, t] = .ok (pack T (r.2.2 s d f))) ∧
    (∀ r ∈ portMembers, ∀ s d : Reg, encode T [r.1.token, s.token, d.token] = .ok (pack T (r.2.2 s d))) ∧
    (∀ (d : Reg) t v, parseNum t = some v → v ≤ 4194303 →
      encode T [chars "LDI", d.token, t] = .ok (pack T (.ldi d v))) ∧
    (∀ (c : Cond) (r : Reg),
      encode T [chars "JMP", c.token, r.token] = .ok (pack T (.jmp c r)) ∧
      encode T [chars "JMPM", c.token, r.token] = .ok (pack T (.jmpm c r))) ∧
    ∀ (c : Cond) t v, parseNum t = some v → v ≤ 4194303 →
      encode T [chars "JMPA", c.token, t] = .ok (pack T (.jmpa c v)) ∧
      encode T [chars "JMPR", c.token, t] = .ok (pack T (.jmpr c v))

/-- R69 with decision D6 (logs 7 and 18): `parse_num` accepts exactly the two forms of the grammar, with the value read in base 16 or 10
without bound. -/
def Obligations.NumeralsAreTheGrammar : Prop :=
  ∀ (t : Token) (v : Nat), parseNum t = some v ↔
    (∃ ds, t = '0' :: 'x' :: ds ∧ ds ≠ [] ∧ (∀ c ∈ ds, c.toLower ∈ chars "0123456789abcdef") ∧
      v = ds.foldl (fun a c => 16 * a + hexValue c) 0) ∨
    (¬ (∃ ds, t = '0' :: 'x' :: ds) ∧ t ≠ [] ∧ (∀ c ∈ t, c.isDigit = true) ∧ v = Nat.ofDigitChars 10 t 0)

/-- R62: only the number of tokens and the first four tokens can influence the result, and five or more tokens fail with
`UnknownMnemonic` or `OperandCountMismatch`. -/
def Obligations.OnlyFirstFourTokensMatter : Prop :=
  ∀ (T : Tables) (ts us : List Token),
    (ts.length = us.length → ts.take 4 = us.take 4 → encode T ts = encode T us) ∧
    (5 ≤ ts.length → encode T ts = .error .UnknownMnemonic ∨ encode T ts = .error .OperandCountMismatch)

/-- R76 (a): a word the encoder gives is canonical and decodes to the well-formed instruction the line parses to. -/
def Obligations.EncodedWordDecodesToParsedLine : Prop :=
  ∀ (T : Tables) (ts : List Token) (w : Word), encode T ts = .ok w →
    canonical T w = true ∧ ∃ i : Instr, i.WellFormed ∧ parse ts = .ok i ∧ decode T w = .known i

/-! ## Text -/

/-- R61, for any whitespace set (D11; logs 3 and 18): the two equations that determine `tokenize`, and that its tokens are non-empty and hold no
whitespace. -/
def Obligations.TokenizeTakesMaximalRuns : Prop :=
  ∀ T : Tables,
    (∀ u : Text, (∀ c ∈ u, c ∈ T.whitespace) → tokenize T u = []) ∧
    (∀ (u : Text) (t : Token) (rest : Text), (∀ c ∈ u, c ∈ T.whitespace) → t ≠ [] → (∀ c ∈ t, c ∉ T.whitespace) →
      (∀ c, rest.head? = some c → c ∈ T.whitespace) → tokenize T (u ++ t ++ rest) = t :: tokenize T rest) ∧
    ∀ (line : Text), ∀ t ∈ tokenize T line, t ≠ [] ∧ ∀ c ∈ t, c ∉ T.whitespace

/-- R92 with decision D10 (log 11): the canonical text of each family. -/
def Obligations.CanonicalTextForms : Prop :=
  render (.known .nop) = chars "NOP" ∧
  (∀ r ∈ aluMembers, ∀ s d : Reg,
    render (.known (r.2.2 s d 0)) = r.1.token ++ chars " " ++ s.token ++ chars " " ++ d.token ∧
    render (.known (r.2.2 s d 1)) = r.1.token ++ chars " " ++ s.token ++ chars " " ++ d.token ++ chars " 1") ∧
  (∀ r ∈ portMembers, ∀ s d : Reg,
    render (.known (r.2.2 s d)) = r.1.token ++ chars " " ++ s.token ++ chars " " ++ d.token) ∧
  (∀ (d : Reg) v, render (.known (.ldi d v)) = chars "LDI " ++ d.token ++ chars " " ++ (toString v).toList) ∧
  (∀ (c : Cond) (r : Reg),
    render (.known (.jmp c r)) = chars "JMP " ++ c.token ++ chars " " ++ r.token ∧
    render (.known (.jmpm c r)) = chars "JMPM " ++ c.token ++ chars " " ++ r.token) ∧
  ∀ (c : Cond) v,
    render (.known (.jmpa c v)) = chars "JMPA " ++ c.token ++ chars " " ++ (toString v).toList ∧
    render (.known (.jmpr c v)) = chars "JMPR " ++ c.token ++ chars " " ++ (toString v).toList

/-- R97 (derived there; text form D10, log 11): the canonical tokens of a well-formed instruction parse back to it. -/
def Obligations.CanonicalTokensParseBack : Prop :=
  ∀ i : Instr, i.WellFormed → parse (renderTokens (.known i)) = .ok i

/-- R97 (derived there; text form D10, log 11): the canonical text of a canonical word assembles back to that word, and the text of any decoded
word splits into its canonical tokens. -/
def Obligations.CanonicalTextAssemblesBack : Prop :=
  ∀ (T : Tables) (w : Word),
    tokenize T (render (decode T w)) = renderTokens (decode T w) ∧
    (canonical T w = true → encode T (tokenize T (render (decode T w))) = .ok w)

/-- R94 with decision D10 (log 11): the text of an `Unknown` is `???` and the opcode's six binary digits, most significant first,
and it is no valid line. -/
def Obligations.UnknownTextIsNoLine : Prop :=
  ∀ (T : Tables) (c : BitVec 6),
    (∃ ds : List Bool, ds.length = 6 ∧ ds.foldl (fun a b => 2 * a + b.toNat) 0 = c.toNat ∧
      render (.unknown c) = chars "??? " ++ ds.map fun b => if b then '1' else '0') ∧
    encode T (tokenize T (render (.unknown c))) = .error .UnknownMnemonic

/-- R92 with decision D10 (log 11): `dec(v)` has decimal digits only, no leading zero but for `0` itself, and reads back as `v`. -/
def Obligations.DecimalReadsBack : Prop :=
  ∀ v : Nat, (∀ c ∈ decimal v, c.isDigit = true) ∧ (0 < v → (decimal v).head? ≠ some '0') ∧
    decimal 0 = chars "0" ∧ parseNum (decimal v) = some v

/-! ## The machine -/

/-- When the word at DEC's input decodes to `i`, a step is `exec i` on the state whose call has been taken; and
`withFetchWord` puts a word where the next step takes it. One call a step is the model's choice (log 1), so is
`withFetchWord` for handing in a word (log 2), and that `exec` is DEC's answer its inference (log 9, DEDUCED). -/
def Obligations.StepRunsTheDecodedInstruction : Prop :=
  (∀ (s : State) (w : Word) (rest : List Call) (i : Instr),
    s.calls = .word w :: rest → decode s.tables w = .known i → step s = exec i { s with calls := rest }) ∧
  ∀ (s : State) (nbits w : Nat) (i : Instr),
    decode s.tables (tableWord nbits w) = .known i → step (s.withFetchWord nbits w) = exec i s

/-- A step on a word with an unassigned opcode goes on: it answers `Unknown` with the raw opcode (R88), and the
text of R94 (D10, log 11), which the answer carries by log 5. -/
def Obligations.StepAnswersUnassignedOpcode : Prop :=
  ∀ (s : State) (w : Word) (rest : List Call),
    s.calls = .word w :: rest → opcodeName s.tables (w.extractLsb 31 26) = none →
    step s = .next (afterDecoded { s with calls := rest } (.unknown (w.extractLsb 31 26)) (w.extractLsb 31 26)
      (chars "??? " ++ bin6 (w.extractLsb 31 26)))

/-- A step on a line answers with ENC's result for its tokens (R60, R61).
That a call is a step, and a line of text a call, are the model's choices (logs 1 and 5). -/
def Obligations.StepAnswersLines : Prop :=
  ∀ (s : State) (rest : List Call),
    (∀ ts, s.calls = .tokens ts :: rest →
      step s = .next { s with calls := rest, answers := s.answers ++ [.encoded (encode s.tables ts)] }) ∧
    ∀ text, s.calls = .line text :: rest →
      step s = .next
        { s with calls := rest, answers := s.answers ++ [.encoded (encode s.tables (tokenize s.tables text))] }

/-- With no call waiting a step changes nothing (the model's choice, log 1). -/
def Obligations.IdleStepChangesNothing : Prop := ∀ s : State, s.calls = [] → step s = .next s

/-- NOP completes: the answer of R105's "Decoder" clause, and nothing else changed.
That `exec` is DEC's answer is the model's inference (log 9, DEDUCED), that the answer carries the text is log 5. -/
def Obligations.NopCompletes : Prop :=
  ∀ s : State, exec .nop s =
    .next (afterDecoded s (.known .nop) (opcodeCode s.tables .NOP) (chars "NOP"))

/-- LOAD, STORE, MOV and the nine others complete: for each, the answer of its rule's "Decoder" clause (R110 to R122), and
nothing else changed, for every well-formed flag (log 13 has the others).
That `exec` is DEC's answer is the model's inference (log 9, DEDUCED), that the answer carries the text is log 5, and the text's form,
with a trailing 1 for a flag of 1, is D10 (log 11). -/
def Obligations.RegisterALUCompletes : Prop :=
  ∀ (s : State) (src dst : Reg) (flag : Nat), flag ≤ 1 →
    let tail := chars " " ++ src.token ++ chars " " ++ dst.token ++ (if flag = 0 then [] else chars " 1")
    let done := fun (i : Instr) (op : OpcodeName) (name : String) =>
      Host.Outcome.next (φ := Fault) (ρ := Refusal)
        (afterDecoded s (.known i) (opcodeCode s.tables op) (chars name ++ tail))
    exec (.load src dst flag) s = done (.load src dst flag) .LOAD "LOAD" ∧
    exec (.store src dst flag) s = done (.store src dst flag) .STORE "STORE" ∧
    exec (.mov src dst flag) s = done (.mov src dst flag) .MOV "MOV" ∧
    exec (.add src dst flag) s = done (.add src dst flag) .ADD "ADD" ∧
    exec (.sub src dst flag) s = done (.sub src dst flag) .SUB "SUB" ∧
    exec (.cmp src dst flag) s = done (.cmp src dst flag) .CMP "CMP" ∧
    exec (.and src dst flag) s = done (.and src dst flag) .AND "AND" ∧
    exec (.or src dst flag) s = done (.or src dst flag) .OR "OR" ∧
    exec (.xor src dst flag) s = done (.xor src dst flag) .XOR "XOR" ∧
    exec (.not src dst flag) s = done (.not src dst flag) .NOT "NOT" ∧
    exec (.inc src dst flag) s = done (.inc src dst flag) .INC "INC" ∧
    exec (.dec src dst flag) s = done (.dec src dst flag) .DEC "DEC"

/-- IN and OUT complete: for each, the answer of its rule's "Decoder" clause (R131, R132), and nothing else changed.
That `exec` is DEC's answer is the model's inference (log 9, DEDUCED), that the answer carries the text is log 5, and the text's form
is D10 (log 11). -/
def Obligations.PortIOCompletes : Prop :=
  ∀ (s : State) (src dst : Reg),
    exec (.portIn src dst) s = .next (afterDecoded s (.known (.portIn src dst)) (opcodeCode s.tables .IN)
      (chars "IN " ++ src.token ++ chars " " ++ dst.token)) ∧
    exec (.portOut src dst) s = .next (afterDecoded s (.known (.portOut src dst)) (opcodeCode s.tables .OUT)
      (chars "OUT " ++ src.token ++ chars " " ++ dst.token))

/-- LDI completes: the answer of R135's "Decoder" clause, and nothing else changed.
That `exec` is DEC's answer is the model's inference (log 9, DEDUCED), that the answer carries the text is log 5, and the decimal text
is D10 (log 11). For an immediate above 4194303, which no word holds, the answer is the model's choice (log 13). -/
def Obligations.LdiCompletes : Prop :=
  ∀ (s : State) (dst : Reg) (imm : Nat),
    exec (.ldi dst imm) s = .next (afterDecoded s (.known (.ldi dst imm)) (opcodeCode s.tables .LDI)
      (chars "LDI " ++ dst.token ++ chars " " ++ decimal imm))

/-- JMP and JMPM complete: for each, the answer of its rule's "Decoder" clause (R141, R142), and nothing else changed.
That `exec` is DEC's answer is the model's inference (log 9, DEDUCED), that the answer carries the text is log 5, and the text's form
is D10 (log 11). -/
def Obligations.JumpIndirectCompletes : Prop :=
  ∀ (s : State) (cond : Cond) (reg : Reg),
    exec (.jmp cond reg) s = .next (afterDecoded s (.known (.jmp cond reg)) (opcodeCode s.tables .JMP)
      (chars "JMP " ++ cond.token ++ chars " " ++ reg.token)) ∧
    exec (.jmpm cond reg) s = .next (afterDecoded s (.known (.jmpm cond reg)) (opcodeCode s.tables .JMP)
      (chars "JMPM " ++ cond.token ++ chars " " ++ reg.token))

/-- JMPA and JMPR complete: for each, the answer of its rule's "Decoder" clause (R147, R148), and nothing else changed.
That `exec` is DEC's answer is the model's inference (log 9, DEDUCED), that the answer carries the text is log 5, and the decimal text
is D10 (log 11). For an immediate above 4194303, which no word holds, the answer is the model's choice (log 13). -/
def Obligations.JumpDirectCompletes : Prop :=
  ∀ (s : State) (cond : Cond) (imm : Nat),
    exec (.jmpa cond imm) s = .next (afterDecoded s (.known (.jmpa cond imm)) (opcodeCode s.tables .JMP)
      (chars "JMPA " ++ cond.token ++ chars " " ++ decimal imm)) ∧
    exec (.jmpr cond imm) s = .next (afterDecoded s (.known (.jmpr cond imm)) (opcodeCode s.tables .JMP)
      (chars "JMPR " ++ cond.token ++ chars " " ++ decimal imm))

/-- The frame of every instruction: its effect is one answer more; the tables, the calls waiting and every earlier answer
stay (R13, R17). That the effect is an answer is the model's inference (log 9, DEDUCED). -/
def Obligations.InstructionFrame : Prop :=
  ∀ (i : Instr) (s s' : State), exec i s = .next s' →
    s'.tables = s.tables ∧ s'.calls = s.calls ∧ ∃ a, s'.answers = s.answers ++ [a]

/-- R18 with decision D14 (log 14): a step on any call gives the answer that is a function of the call and the tables alone; for a
word, through whichever instruction's meaning, that is the decoded line, the raw opcode `w[31:26]` and the canonical
text.
That the answer carries the text is log 5, the form of the text D10 (log 11). -/
def Obligations.StepIsTheCombinationalAnswer : Prop :=
  ∀ (s : State) (c : Call) (rest : List Call), s.calls = c :: rest →
    step s = .next { s with calls := rest, answers := s.answers ++ [answerOf s.tables c] } ∧
    ∀ w, c = .word w → answerOf s.tables c =
      .decoded { line := decode s.tables w, rawOpcode := w.extractLsb 31 26, text := render (decode s.tables w) }

/-- R18's ports with U3: which of them are meaningful. -/
def Obligations.PortsAreMeaningfulWhenSaid : Prop :=
  (∀ T w, (decKnown (decOutput T w) = true ↔ opcodeName T (w.extractLsb 31 26) ≠ none) ∧
    ((decInstr (decOutput T w)).isSome = decKnown (decOutput T w)) ∧
    decRawOpcode (decOutput T w) = w.extractLsb 31 26) ∧
  ∀ T ts, (encWord (encode T ts)).isSome = encOk (encode T ts) ∧
    (encErr (encode T ts)).isSome = !encOk (encode T ts)

/-- No step faults or refuses: every call has its answer (R86, R162, R163).
That a step with no call waiting goes on too, and adds no answer, is the model's choice (log 1). -/
def Obligations.EveryStepGoesOn : Prop :=
  ∀ s : State, ∃ s', step s = .next s' ∧ s'.calls = s.calls.tail ∧
    s'.answers.length = s.answers.length + (if s.calls = [] then 0 else 1)

/-- R163: a failure is the value of the call that caused it, nothing is saved and no word is given. -/
def Obligations.FailureIsTheCallsValue : Prop :=
  ∀ (s : State) (ts : List Token) (rest : List Call) (e : EncodeError),
    s.calls = .tokens ts :: rest → encode s.tables ts = .error e →
    step s = .next { s with calls := rest, answers := s.answers ++ [.encoded (.error e)] } ∧
    encOk (encode s.tables ts) = false ∧ encWord (encode s.tables ts) = none

/-- R164: after a failed call the next call is answered as if the failed call had never been made. -/
def Obligations.FailureLeavesNoTrace : Prop :=
  ∀ (s : State) (c d : Call) (rest : List Call) (e : EncodeError),
    s.calls = c :: d :: rest → answerOf s.tables c = .encoded (.error e) →
    ∃ a s₁, step s = .next s₁ ∧ s₁.answers = s.answers ++ [.encoded (.error e)] ∧
      step s₁ = .next { s with calls := rest, answers := s₁.answers ++ [a] } ∧
      step { s with calls := d :: rest } = .next { s with calls := rest, answers := s.answers ++ [a] }

/-- R29, for calls earlier and later (a concurrent one is outside the model, log 14): the answer of a call depends on the
call alone: two states that agree on the tables and the first call, and on
nothing else, give it the same answer. -/
def Obligations.AnswersAreIndependent : Prop :=
  ∀ (s₁ s₂ : State) (c : Call) (r₁ r₂ : List Call),
    s₁.tables = s₂.tables → s₁.calls = c :: r₁ → s₂.calls = c :: r₂ →
    ∃ a, step s₁ = .next { s₁ with calls := r₁, answers := s₁.answers ++ [a] } ∧
      step s₂ = .next { s₂ with calls := r₂, answers := s₂.answers ++ [a] }

/-- R30 and R165 with decision D17 (log 17): from any state, as many steps as calls wait answer them all, in order, result `i` for
call `i`; a failed line holds its place and aborts nothing. -/
def Obligations.BatchIsAnsweredInOrder : Prop :=
  (∀ s : State, Sys2Proof.core.run s.calls.length s =
    .next { s with calls := [], answers := s.answers ++ s.calls.map (answerOf s.tables) }) ∧
  (∀ (s : State) (lines : List Text), s.calls = lines.map .line →
    Sys2Proof.core.run lines.length s =
      .next { s with calls := [], answers := s.answers ++ (encodeBatch s.tables lines).map .encoded }) ∧
  ∀ (s : State) (n : Nat), n ≤ s.calls.length →
    Sys2Proof.core.run n s =
      .next { s with calls := s.calls.drop n, answers := s.answers ++ (s.calls.take n).map (answerOf s.tables) }

/-- R17 and R31: no run, however long, changes a table. -/
def Obligations.TablesNeverChange : Prop :=
  ∀ (n : Nat) (s : State), ∃ s', Sys2Proof.core.run n s = .next s' ∧ s'.tables = s.tables

/-- The invariant: every answer given is sound (a decoded instruction is well-formed, its raw opcode is its own and its
text assembles back to its word; an encoded word is canonical) and every waiting line is made of tokens.
Every step keeps it, from every state that has it.
That answers carry text and calls wait in a list are logs 5 and 2, the form of the text is D10 (log 11). -/
def Obligations.StepKeepsTheInvariant : Prop :=
  ∀ s s' : State, s.Inv → step s = .next s' → s'.Inv

/-- The invariant holds right after reset, and survives any proper call the host makes. -/
def Obligations.ResetHasTheInvariant : Prop :=
  State.reset.Inv ∧ ∀ (s : State) (c : Call), s.Inv → c.Proper s.tables → (s.putFirst c).Inv

/-- R24 and R176 with decisions D1, D2, D3, D11 (logs 4 and 18): right after reset the tables hold their defined contents, and (the model's
choice, log 2) no call waits and none has been answered. -/
def Obligations.ResetState : Prop :=
  State.reset.tables.opcodes =
    [.NOP, .LOAD, .STORE, .MOV, .LDI, .ADD, .SUB, .CMP, .AND, .OR, .XOR, .NOT, .INC, .DEC, .IN, .OUT, .JMP] ∧
  State.reset.tables.regs = [.A, .B, .C, .D, .E, .F, .G, .H, .I, .J, .K, .L, .M, .N, .O, .P] ∧
  State.reset.tables.conds = [.AL, .Z, .N, .C] ∧
  State.reset.tables.whitespace.map Char.toNat = [0x20, 0x09, 0x0A, 0x0B, 0x0C, 0x0D] ∧
  State.reset.calls = [] ∧ State.reset.answers = []
end

