-- ==== Sys2Proof/Laws/Codes.lean ====
section
/-! SUPPORT. Small lemmas of the lookup tables: every name has a place in its table, and a code's number is that place. -/

namespace Sys2Proof

/-- A list without repeats, as long as a list that holds every value, holds every value too. -/
theorem mem_of_nodup_of_length {α : Type} {l all : List α} (hall : ∀ a, a ∈ all)
    (hnd : l.Nodup) (hlen : l.length = all.length) (a : α) : a ∈ l := by
  have hsub : l.Subperm all := List.subperm_of_subset hnd fun b _ => hall b
  exact (hsub.perm_of_length_le (le_of_eq hlen.symm)).mem_iff.mpr (hall a)

theorem OpcodeName.mem_all (op : OpcodeName) : op ∈ OpcodeName.all := by cases op <;> decide
theorem Reg.mem_all (r : Reg) : r ∈ Reg.all := by cases r <;> decide
theorem Cond.mem_all (c : Cond) : c ∈ Cond.all := by cases c <;> decide
theorem Mnemonic.mem_all (m : Mnemonic) : m ∈ Mnemonic.all := by cases m <;> decide

theorem Tables.mem_opcodes (T : Tables) (op : OpcodeName) : op ∈ T.opcodes :=
  mem_of_nodup_of_length OpcodeName.mem_all T.opcodes_nodup T.opcodes_length op

theorem Tables.mem_regs (T : Tables) (r : Reg) : r ∈ T.regs :=
  mem_of_nodup_of_length Reg.mem_all T.regs_nodup T.regs_length r

theorem Tables.mem_conds (T : Tables) (c : Cond) : c ∈ T.conds :=
  mem_of_nodup_of_length Cond.mem_all T.conds_nodup T.conds_length c

theorem idxOf_opcodes_lt (T : Tables) (op : OpcodeName) : T.opcodes.idxOf op < 17 :=
  T.opcodes_length ▸ List.idxOf_lt_length_of_mem (T.mem_opcodes op)

theorem idxOf_regs_lt (T : Tables) (r : Reg) : T.regs.idxOf r < 16 :=
  T.regs_length ▸ List.idxOf_lt_length_of_mem (T.mem_regs r)

theorem idxOf_conds_lt (T : Tables) (c : Cond) : T.conds.idxOf c < 4 :=
  T.conds_length ▸ List.idxOf_lt_length_of_mem (T.mem_conds c)

theorem opcodeCode_toNat (T : Tables) (op : OpcodeName) : (opcodeCode T op).toNat = T.opcodes.idxOf op := by
  have := idxOf_opcodes_lt T op
  simp only [opcodeCode, BitVec.toNat_ofNat]
  omega

theorem regCode_toNat (T : Tables) (r : Reg) : (regCode T r).toNat = T.regs.idxOf r := by
  have := idxOf_regs_lt T r
  simp only [regCode, BitVec.toNat_ofNat]
  omega

theorem condCode_toNat (T : Tables) (c : Cond) : (condCode T c).toNat = T.conds.idxOf c := by
  have := idxOf_conds_lt T c
  simp only [condCode, BitVec.toNat_ofNat]
  omega

theorem opcodeCode_lt (T : Tables) (op : OpcodeName) : (opcodeCode T op).toNat < 17 :=
  opcodeCode_toNat T op ▸ idxOf_opcodes_lt T op

/-- NOP has code 0 in every configuration (R40). -/
theorem idxOf_nop (T : Tables) : T.opcodes.idxOf .NOP = 0 := by
  have h := T.opcodes_nop
  cases hl : T.opcodes with
  | nil => simp [hl] at h
  | cons a l => simp [hl] at h; simp [h]

/-- The opcode field of a word, as a number. -/
theorem opcodeField_toNat (w : Word) : (opcodeField w).toNat = w.toNat / 2 ^ 26 := by
  have := w.isLt
  simp only [opcodeField, bits, BitVec.toNat_ofNat]
  omega

end Sys2Proof
end

