-- ==== Sys2Proof/Laws/Pack.lean ====
section
/-! SUPPORT. The word of an instruction as a sum of its fields, each in its place. -/

namespace Sys2Proof

/-- Fields below bit `i` leave what stands from bit `i` up alone: `|` is `+` (00_scope.md section 5). -/
theorem shift_or_eq_add {a b i : Nat} (h : b < 2 ^ i) : a <<< i ||| b = a * 2 ^ i + b := by
  rw [← Nat.shiftLeft_add_eq_or_of_lt h, Nat.shiftLeft_eq]

theorem packRegisterALU_toNat (T : Tables) (op : OpcodeName) (src dst : Reg) {flag : Nat} (h : flag ≤ 1) :
    (packRegisterALU T op src dst flag).toNat =
      (opcodeCode T op).toNat * 2 ^ 26 + (regCode T src).toNat * 2 ^ 22 + (regCode T dst).toNat * 2 ^ 18 +
        flag * 2 ^ 17 := by
  have h1 := (opcodeCode T op).isLt
  have h2 := (regCode T src).isLt
  have h3 := (regCode T dst).isLt
  unfold packRegisterALU
  rw [Nat.or_assoc, Nat.or_assoc, Nat.shiftLeft_eq flag]
  rw [shift_or_eq_add (a := (regCode T dst).toNat) (by omega),
    shift_or_eq_add (a := (regCode T src).toNat) (by omega), shift_or_eq_add (by omega), BitVec.toNat_ofNat]
  omega

theorem packPortIO_toNat (T : Tables) (op : OpcodeName) (src dst : Reg) :
    (packPortIO T op src dst).toNat =
      (opcodeCode T op).toNat * 2 ^ 26 + (regCode T src).toNat * 2 ^ 22 + (regCode T dst).toNat * 2 ^ 18 := by
  have h1 := (opcodeCode T op).isLt
  have h2 := (regCode T src).isLt
  have h3 := (regCode T dst).isLt
  unfold packPortIO
  rw [Nat.or_assoc, Nat.shiftLeft_eq (regCode T dst).toNat]
  rw [shift_or_eq_add (a := (regCode T src).toNat) (by omega), shift_or_eq_add (by omega), BitVec.toNat_ofNat]
  omega

theorem packLoadImmediate_toNat (T : Tables) (dst : Reg) {imm : Nat} (h : imm ≤ maxImm) :
    (packLoadImmediate T dst imm).toNat =
      (opcodeCode T .LDI).toNat * 2 ^ 26 + (regCode T dst).toNat * 2 ^ 22 + imm := by
  have h1 := (opcodeCode T .LDI).isLt
  have h2 := (regCode T dst).isLt
  have h3 : imm ≤ 4194303 := h
  unfold packLoadImmediate
  rw [Nat.or_assoc]
  rw [shift_or_eq_add (a := (regCode T dst).toNat) (by omega), shift_or_eq_add (by omega), BitVec.toNat_ofNat]
  omega

theorem packJumpIndirect_toNat (T : Tables) (cond : Cond) (reg : Reg) {mem : Nat} (h : mem ≤ 1) :
    (packJumpIndirect T cond reg mem).toNat =
      (opcodeCode T .JMP).toNat * 2 ^ 26 + (regCode T reg).toNat * 2 ^ 22 + (condCode T cond).toNat * 2 ^ 20 + mem := by
  have h1 := (opcodeCode T .JMP).isLt
  have h2 := (regCode T reg).isLt
  have h3 := (condCode T cond).isLt
  unfold packJumpIndirect
  rw [Nat.or_assoc, Nat.or_assoc]
  rw [shift_or_eq_add (a := (condCode T cond).toNat) (by omega),
    shift_or_eq_add (a := (regCode T reg).toNat) (by omega), shift_or_eq_add (by omega), BitVec.toNat_ofNat]
  omega

theorem packJumpDirect_toNat (T : Tables) (cond : Cond) {imm rel : Nat} (h : imm ≤ maxImm) (hr : rel ≤ 1) :
    (packJumpDirect T cond imm rel).toNat =
      (opcodeCode T .JMP).toNat * 2 ^ 26 + (condCode T cond).toNat * 2 ^ 24 + imm * 2 ^ 2 + 2 + rel := by
  have h1 := (opcodeCode T .JMP).isLt
  have h2 := (condCode T cond).isLt
  have h3 : imm ≤ 4194303 := h
  have h4 : (2 ||| rel) = 2 + rel := by interval_cases rel <;> rfl
  unfold packJumpDirect
  rw [Nat.or_assoc, Nat.or_assoc, Nat.or_assoc, h4]
  rw [shift_or_eq_add (a := imm) (by omega),
    shift_or_eq_add (a := (condCode T cond).toNat) (by omega), shift_or_eq_add (by omega), BitVec.toNat_ofNat]
  omega

/-- NOP's word is zero in every configuration (R42). -/
theorem pack_nop (T : Tables) : pack T .nop = 0#32 := by
  simp [pack, opcodeCode, idxOf_nop]

end Sys2Proof
end

