-- ==== Sys2Proof/Laws/Decode.lean ====
section
/-! SUPPORT. What the decoder does, said once, and the fields it reads as numbers and as `extractLsb`. -/

namespace Sys2Proof

/-- `w[hi:lo]` is the word's `extractLsb`, as a number. -/
theorem extractLsb_toNat_eq_bits (w : Word) (hi lo : Nat) : (w.extractLsb hi lo).toNat = bits w hi lo := by
  simp [bits, BitVec.extractLsb, BitVec.extractLsb'_toNat, Nat.shiftRight_eq_div_pow]

/-- The opcode field is `w[31:26]` (R38). -/
theorem extractLsb_eq_opcodeField (w : Word) : w.extractLsb 31 26 = opcodeField w := by
  apply BitVec.eq_of_toNat_eq
  have := w.isLt
  rw [extractLsb_toNat_eq_bits, opcodeField_toNat]
  unfold bits
  omega

theorem unpackReg_25_22 (T : Tables) (w : Word) : unpackReg T w 25 22 = regName T (w.extractLsb 25 22) := by
  unfold unpackReg
  congr 1
  apply BitVec.eq_of_toNat_eq
  rw [BitVec.toNat_ofNat, extractLsb_toNat_eq_bits]
  unfold bits
  omega

theorem unpackReg_21_18 (T : Tables) (w : Word) : unpackReg T w 21 18 = regName T (w.extractLsb 21 18) := by
  unfold unpackReg
  congr 1
  apply BitVec.eq_of_toNat_eq
  rw [BitVec.toNat_ofNat, extractLsb_toNat_eq_bits]
  unfold bits
  omega

theorem unpackCond_25_24 (T : Tables) (w : Word) : unpackCond T w 25 24 = condName T (w.extractLsb 25 24) := by
  unfold unpackCond
  congr 1
  apply BitVec.eq_of_toNat_eq
  rw [BitVec.toNat_ofNat, extractLsb_toNat_eq_bits]
  unfold bits
  omega

theorem unpackCond_21_20 (T : Tables) (w : Word) : unpackCond T w 21 20 = condName T (w.extractLsb 21 20) := by
  unfold unpackCond
  congr 1
  apply BitVec.eq_of_toNat_eq
  rw [BitVec.toNat_ofNat, extractLsb_toNat_eq_bits]
  unfold bits
  omega

/-- An assigned opcode decodes to its unpacking (R86). -/
theorem decode_of_name {T : Tables} {w : Word} {op : OpcodeName} (h : opcodeName T (opcodeField w) = some op) :
    decode T w = .known (unpack T op w) := by
  unfold decode
  rw [h]

/-- An unassigned opcode decodes to `Unknown` (R86). -/
theorem decode_of_none {T : Tables} {w : Word} (h : opcodeName T (opcodeField w) = none) :
    decode T w = .unknown (opcodeField w) := by
  unfold decode
  rw [h]

/-- A `Known` result comes from the unpacking of an assigned opcode, and from nothing else. -/
theorem name_of_decode_known {T : Tables} {w : Word} {i : Instr} (h : decode T w = .known i) :
    ∃ op, opcodeName T (opcodeField w) = some op ∧ i = unpack T op w := by
  unfold decode at h
  split at h
  · cases h
  · injection h with h
    exact ⟨_, ‹_›, h.symm⟩

/-- The four modes of a JMP word (R47). -/
theorem unpackJump_by_mode (T : Tables) (w : Word) :
    unpackJump T w =
      if w.toNat % 4 = 0 then .jmp (condName T (w.extractLsb 21 20)) (regName T (w.extractLsb 25 22))
      else if w.toNat % 4 = 1 then .jmpm (condName T (w.extractLsb 21 20)) (regName T (w.extractLsb 25 22))
      else if w.toNat % 4 = 2 then .jmpa (condName T (w.extractLsb 25 24)) (w.extractLsb 23 2).toNat
      else .jmpr (condName T (w.extractLsb 25 24)) (w.extractLsb 23 2).toNat := by
  unfold unpackJump unpackJumpIndirect unpackJumpDirect
  rw [unpackReg_25_22, unpackCond_25_24, unpackCond_21_20, extractLsb_toNat_eq_bits]
  have h1 : bits w 1 1 = w.toNat % 4 / 2 := by unfold bits; omega
  have h0 : bits w 0 0 = w.toNat % 4 % 2 := by unfold bits; omega
  rw [h1, h0]
  have : w.toNat % 4 < 4 := by omega
  generalize w.toNat % 4 = m at *
  interval_cases m <;> rfl

/-- Unpacking keeps the opcode name. -/
theorem unpack_opName (T : Tables) (op : OpcodeName) (w : Word) : (unpack T op w).opName = op := by
  cases op <;> try rfl
  simp only [unpack, unpackJump_by_mode]
  split
  · rfl
  · split
    · rfl
    · split <;> rfl

/-- The family of what is unpacked is the one the opcode name and `w[1]` select (R35, R37). -/
theorem unpack_family (T : Tables) (op : OpcodeName) (w : Word) :
    (unpack T op w).family = familyOf op (bits w 1 1) := by
  cases op <;> try rfl
  have h1 : bits w 1 1 = w.toNat % 4 / 2 := by unfold bits; omega
  simp only [unpack, unpackJump_by_mode, h1]
  have : w.toNat % 4 < 4 := by omega
  generalize w.toNat % 4 = m at *
  interval_cases m <;> rfl

end Sys2Proof
end

