-- ==== Sys2Proof/Laws/Names.lean ====
section
/-! SUPPORT. Small lemmas of the names' spelling and of the operand readers. -/

namespace Sys2Proof

@[simp] theorem regOfToken_token (r : Reg) : regOfToken r.token = some r := by cases r <;> decide
@[simp] theorem condOfToken_token (c : Cond) : condOfToken c.token = some c := by cases c <;> decide
@[simp] theorem mnemonicOfToken_token (m : Mnemonic) : mnemonicOfToken m.token = some m := by cases m <;> decide

theorem token_of_regOfToken {t : Token} {r : Reg} (h : regOfToken t = some r) : t = r.token := by
  have := List.find?_some h
  exact (beq_iff_eq.mp this).symm

theorem token_of_condOfToken {t : Token} {c : Cond} (h : condOfToken t = some c) : t = c.token := by
  have := List.find?_some h
  exact (beq_iff_eq.mp this).symm

theorem token_of_mnemonicOfToken {t : Token} {m : Mnemonic} (h : mnemonicOfToken t = some m) : t = m.token := by
  have := List.find?_some h
  exact (beq_iff_eq.mp this).symm

namespace Machine

/-- A register operand succeeds exactly on a register's name, and never falls back on a default (R67). -/
theorem regOperand_ok {t : Token} {r : Reg} : regOperand t = .ok r ↔ t = r.token := by
  unfold regOperand
  split
  · rename_i h
    refine ⟨nofun, fun hr => ?_⟩
    rw [hr, regOfToken_token] at h
    cases h
  · rename_i r' h
    have ht := token_of_regOfToken h
    refine ⟨fun hr => by injection hr with hr; rw [ht, hr], fun hr => ?_⟩
    rw [hr, regOfToken_token] at h
    injection h with h
    rw [h]

/-- A condition operand succeeds exactly on a condition's name (R68). -/
theorem condOperand_ok {t : Token} {c : Cond} : condOperand t = .ok c ↔ t = c.token := by
  unfold condOperand
  split
  · rename_i h
    refine ⟨nofun, fun hr => ?_⟩
    rw [hr, condOfToken_token] at h
    cases h
  · rename_i c' h
    have ht := token_of_condOfToken h
    refine ⟨fun hr => by injection hr with hr; rw [ht, hr], fun hr => ?_⟩
    rw [hr, condOfToken_token] at h
    injection h with h
    rw [h]

/-- A numeric operand succeeds exactly on a numeral whose value fits its field (R70). -/
theorem numOperand_ok {width v : Nat} {t : Token} :
    numOperand width t = .ok v ↔ parseNum t = some v ∧ v ≤ 2 ^ width - 1 := by
  unfold numOperand
  split
  · rename_i h
    exact ⟨nofun, fun hv => by rw [h] at hv; cases hv.1⟩
  · rename_i v' h
    by_cases hgt : v' > 2 ^ width - 1
    · rw [if_pos hgt]
      exact ⟨nofun, fun hv => by rw [h] at hv; injection hv.1 with e; omega⟩
    · rw [if_neg hgt]
      constructor
      · intro hv
        injection hv with hv
        exact ⟨by rw [h, hv], by omega⟩
      · intro hv
        rw [h] at hv
        injection hv.1 with e
        rw [e]

@[simp] theorem regOperand_token (r : Reg) : regOperand r.token = .ok r := regOperand_ok.mpr rfl
@[simp] theorem condOperand_token (c : Cond) : condOperand c.token = .ok c := condOperand_ok.mpr rfl

/-- A line whose first token spells a mnemonic is read by that mnemonic's operand reader (R63). -/
theorem parse_cons_token (m : Mnemonic) (ops : List Token) : parse (m.token :: ops) = parseOperands m ops := by
  simp [parse]

/-- A sequence of operand readers succeeds when each does. -/
theorem bind_eq_ok {α β : Type} {x : Except EncodeError α} {f : α → Except EncodeError β} {b : β} :
    (x >>= f) = .ok b ↔ ∃ a, x = .ok a ∧ f a = .ok b := by
  cases x <;> simp [bind, Except.bind]

/-- `encode` gives a word exactly when the line parses, and then the packing of what it parses to. -/
theorem encode_eq_ok {T : Tables} {ts : List Token} {w : Word} :
    encode T ts = .ok w ↔ ∃ i, parse ts = .ok i ∧ w = pack T i := by
  unfold encode
  cases parse ts <;> simp [Except.map, eq_comm]

/-- `encode` fails exactly when `parse` does, in the same way. -/
theorem encode_eq_error {T : Tables} {ts : List Token} {e : EncodeError} :
    encode T ts = .error e ↔ parse ts = .error e := by
  unfold encode
  cases parse ts <;> simp [Except.map]

end Machine

end Sys2Proof
end

