-- ==== Sys2Proof/Laws/PerInstr.lean ====
section
/-! SUPPORT. Statements made instruction by instruction about the instruction as syntax. -/

namespace Sys2Proof.Laws.Catalog

open Sys2Proof Sys2Proof.Machine

/-- The catalog knows the instruction: its mnemonic is looked up to its opcode name, family and mode (R39), the family
is the one the opcode name and the mode select (R37), and its canonical operand tokens have an admitted count (R64). -/
def Statement (i : Instr) : Prop :=
  mnemonicLookup i.mnemonic.token = some (i.opName, i.family, i.mnemonic.mode) ∧
  familyOf i.opName (i.mnemonic.mode.getD 0 / 2) = i.family ∧
  arityOk i.family (operandTokens i).length = true

/-- The canonical tokens of a RegisterALU member number two or three. -/
theorem registerALUTokens_arity (src dst : Reg) (flag : Nat) :
    arityOk .RegisterALU (registerALUTokens src dst flag).length = true := by
  by_cases h : flag = 0 <;> simp [registerALUTokens, flagTokens, arityOk, h]

/-- The lookup of a mnemonic's own spelling (R39). -/
theorem lookup_mnemonic (m : Mnemonic) : mnemonicLookup m.token = some (m.opName, m.family, m.mode) := by
  simp [mnemonicLookup]

/-- The family the opcode name and the mode bit `w[1]` select is the mnemonic's (R37, R47). -/
theorem familyOf_mode (m : Mnemonic) : familyOf m.opName (m.mode.getD 0 / 2) = m.family := by cases m <;> decide

theorem nop : Statement .nop := ⟨lookup_mnemonic _, familyOf_mode _, rfl⟩
theorem load (src dst : Reg) (flag : Nat) : Statement (.load src dst flag) :=
  ⟨lookup_mnemonic _, familyOf_mode _, registerALUTokens_arity src dst flag⟩
theorem store (src dst : Reg) (flag : Nat) : Statement (.store src dst flag) :=
  ⟨lookup_mnemonic _, familyOf_mode _, registerALUTokens_arity src dst flag⟩
theorem mov (src dst : Reg) (flag : Nat) : Statement (.mov src dst flag) :=
  ⟨lookup_mnemonic _, familyOf_mode _, registerALUTokens_arity src dst flag⟩
theorem ldi (dst : Reg) (imm : Nat) : Statement (.ldi dst imm) := ⟨lookup_mnemonic _, familyOf_mode _, rfl⟩
theorem add (src dst : Reg) (flag : Nat) : Statement (.add src dst flag) :=
  ⟨lookup_mnemonic _, familyOf_mode _, registerALUTokens_arity src dst flag⟩
theorem sub (src dst : Reg) (flag : Nat) : Statement (.sub src dst flag) :=
  ⟨lookup_mnemonic _, familyOf_mode _, registerALUTokens_arity src dst flag⟩
theorem cmp (src dst : Reg) (flag : Nat) : Statement (.cmp src dst flag) :=
  ⟨lookup_mnemonic _, familyOf_mode _, registerALUTokens_arity src dst flag⟩
theorem and (src dst : Reg) (flag : Nat) : Statement (.and src dst flag) :=
  ⟨lookup_mnemonic _, familyOf_mode _, registerALUTokens_arity src dst flag⟩
theorem or (src dst : Reg) (flag : Nat) : Statement (.or src dst flag) :=
  ⟨lookup_mnemonic _, familyOf_mode _, registerALUTokens_arity src dst flag⟩
theorem xor (src dst : Reg) (flag : Nat) : Statement (.xor src dst flag) :=
  ⟨lookup_mnemonic _, familyOf_mode _, registerALUTokens_arity src dst flag⟩
theorem not (src dst : Reg) (flag : Nat) : Statement (.not src dst flag) :=
  ⟨lookup_mnemonic _, familyOf_mode _, registerALUTokens_arity src dst flag⟩
theorem inc (src dst : Reg) (flag : Nat) : Statement (.inc src dst flag) :=
  ⟨lookup_mnemonic _, familyOf_mode _, registerALUTokens_arity src dst flag⟩
theorem dec (src dst : Reg) (flag : Nat) : Statement (.dec src dst flag) :=
  ⟨lookup_mnemonic _, familyOf_mode _, registerALUTokens_arity src dst flag⟩
theorem portIn (src dst : Reg) : Statement (.portIn src dst) := ⟨lookup_mnemonic _, familyOf_mode _, rfl⟩
theorem portOut (src dst : Reg) : Statement (.portOut src dst) := ⟨lookup_mnemonic _, familyOf_mode _, rfl⟩
theorem jmp (cond : Cond) (reg : Reg) : Statement (.jmp cond reg) := ⟨lookup_mnemonic _, familyOf_mode _, rfl⟩
theorem jmpm (cond : Cond) (reg : Reg) : Statement (.jmpm cond reg) := ⟨lookup_mnemonic _, familyOf_mode _, rfl⟩
theorem jmpa (cond : Cond) (imm : Nat) : Statement (.jmpa cond imm) := ⟨lookup_mnemonic _, familyOf_mode _, rfl⟩
theorem jmpr (cond : Cond) (imm : Nat) : Statement (.jmpr cond imm) := ⟨lookup_mnemonic _, familyOf_mode _, rfl⟩

end Sys2Proof.Laws.Catalog
end

