-- ==== Sys2Proof/Laws/State.lean ====
section
/-! SUPPORT. One lemma per field per update of State, and one per shared operation saying all it does. -/

namespace Sys2Proof.Machine

@[simp] theorem State.take_tables (s : State) : s.take.tables = s.tables := rfl
@[simp] theorem State.take_calls (s : State) : s.take.calls = s.calls.tail := rfl
@[simp] theorem State.take_answers (s : State) : s.take.answers = s.answers := rfl

@[simp] theorem State.answer_tables (a : Answer) (s : State) : (s.answer a).tables = s.tables := rfl
@[simp] theorem State.answer_calls (a : Answer) (s : State) : (s.answer a).calls = s.calls := rfl
@[simp] theorem State.answer_answers (a : Answer) (s : State) : (s.answer a).answers = s.answers ++ [a] := rfl

@[simp] theorem State.putFirst_tables (c : Call) (s : State) : (s.putFirst c).tables = s.tables := rfl
@[simp] theorem State.putFirst_calls (c : Call) (s : State) : (s.putFirst c).calls = c :: s.calls := rfl
@[simp] theorem State.putFirst_answers (c : Call) (s : State) : (s.putFirst c).answers = s.answers := rfl
@[simp] theorem State.putFirst_take (c : Call) (s : State) : (s.putFirst c).take = s := rfl

@[simp] theorem State.reset_tables : State.reset.tables = Tables.default := rfl
@[simp] theorem State.reset_calls : State.reset.calls = [] := rfl
@[simp] theorem State.reset_answers : State.reset.answers = [] := rfl

/-- Two states with the same fields are the same. -/
theorem State.ext_fields {s t : State} (ht : s.tables = t.tables) (hc : s.calls = t.calls)
    (ha : s.answers = t.answers) : s = t := by
  cases s; cases t; simp_all

/-- Delivering a failure is giving it as an answer, and nothing else. -/
theorem State.deliverFailure_eq (e : EncodeError) (s : State) :
    s.deliverFailure e = s.answer (.encoded (.error e)) := rfl

/-- ENC's answer to a token line is its result, whether a word or a failure. -/
theorem State.answerTokens_eq (ts : List Token) (s : State) :
    s.answerTokens ts = s.answer (.encoded (encode s.tables ts)) := by
  unfold State.answerTokens
  split <;> rename_i h
  · rw [h]
  · rw [h, State.deliverFailure_eq]

/-- DEC's answer for a known instruction, as one answer. -/
theorem State.answerKnown_eq (m : Mnemonic) (i : Instr) (ops : List Token) (s : State) :
    s.answerKnown m i ops =
      s.answer (.decoded ⟨.known i, opcodeCode s.tables m.opName, joinTokens (m.token :: ops)⟩) := rfl

/-- DEC's answer for an unassigned opcode, as one answer. -/
theorem State.answerUnknown_eq (c : BitVec 6) (s : State) :
    s.answerUnknown c = s.answer (.decoded ⟨.unknown c, c, render (.unknown c)⟩) := rfl

/-- What every meaning does, said once: it gives the answer `Known(i)` with the canonical text of `i`. -/
theorem exec_eq_answerKnown (i : Instr) (s : State) :
    exec i s = .next (s.answerKnown i.mnemonic i (operandTokens i)) := by
  cases i <;> rfl

/-- What a step can do, said once. -/
theorem step_cases {s s' : State} (h : step s = .next s') :
    (s.calls = [] ∧ s' = s) ∨
    (∃ text rest, s.calls = .line text :: rest ∧
      s' = s.take.answer (.encoded (encode s.tables (tokenize s.tables text)))) ∨
    (∃ ts rest, s.calls = .tokens ts :: rest ∧ s' = s.take.answer (.encoded (encode s.tables ts))) ∨
    (∃ w rest i, s.calls = .word w :: rest ∧ decode s.tables w = .known i ∧
      s' = s.take.answerKnown i.mnemonic i (operandTokens i)) ∨
    (∃ w rest c, s.calls = .word w :: rest ∧ decode s.tables w = .unknown c ∧ s' = s.take.answerUnknown c) := by
  unfold step at h
  split at h
  · exact .inl ⟨‹_›, by injection h with h; exact h.symm⟩
  · refine .inr (.inl ⟨_, _, ‹_›, ?_⟩)
    injection h with h
    rw [← h, State.answerTokens_eq]; rfl
  · refine .inr (.inr (.inl ⟨_, _, ‹_›, ?_⟩))
    injection h with h
    rw [← h, State.answerTokens_eq]; rfl
  · split at h
    · rw [exec_eq_answerKnown] at h
      injection h with h
      exact .inr (.inr (.inr (.inl ⟨_, _, _, ‹_›, ‹_›, h.symm⟩)))
    · injection h with h
      exact .inr (.inr (.inr (.inr ⟨_, _, _, ‹_›, ‹_›, h.symm⟩)))

end Sys2Proof.Machine
end

