-- ==== Sys2Proof/Laws/Run.lean ====
section
/-! SUPPORT. Runs of the machine, one step at a time. -/

namespace Sys2Proof.Machine

/-- A run of any machine whose first step goes on. -/
theorem host_run_succ (M : Host.Core) (n : Nat) (s s' : M.State) (h : M.step s = .next s') :
    M.run (n + 1) s = M.run n s' := by
  rw [Host.Core.run, h]

/-- A run of this machine whose first step goes on. -/
theorem core_run_succ (n : Nat) (s s' : State) (h : step s = .next s') :
    Sys2Proof.core.run (n + 1) s = Sys2Proof.core.run n s' :=
  host_run_succ Sys2Proof.core n s s' h

/-- A run of no steps. -/
theorem core_run_zero (s : State) : Sys2Proof.core.run 0 s = .next s := rfl

end Sys2Proof.Machine
end

