-- ==== Sys2Proof/Laws/Text.lean ====
section
/-! SUPPORT. What the tokenizer does on a piece of text, and that joined tokens split again. -/

namespace Sys2Proof.Machine

theorem whitespace_contains {T : Tables} {c : Char} : T.whitespace.contains c = true ↔ c ∈ T.whitespace :=
  List.contains_iff_mem

/-- Whitespace before a token is skipped. -/
theorem tokenizeFrom_whitespace (T : Tables) (u : Text) (hu : ∀ c ∈ u, c ∈ T.whitespace) (rest : Text) :
    tokenizeFrom T [] (u ++ rest) = tokenizeFrom T [] rest := by
  induction u with
  | nil => rfl
  | cons c u ih =>
    have hc : T.whitespace.contains c = true := whitespace_contains.mpr (hu c (by simp))
    simp only [List.cons_append, tokenizeFrom, hc, if_true, endToken, List.nil_append]
    exact ih fun d hd => hu d (by simp [hd])

/-- Token characters join the token being read. -/
theorem tokenizeFrom_token (T : Tables) (t cur : Token) (ht : ∀ c ∈ t, c ∉ T.whitespace) (rest : Text) :
    tokenizeFrom T cur (t ++ rest) = tokenizeFrom T (cur ++ t) rest := by
  induction t generalizing cur with
  | nil => simp
  | cons c u ih =>
    have hc : T.whitespace.contains c = false := by
      rw [← Bool.not_eq_true, whitespace_contains]
      exact ht c (by simp)
    simp only [List.cons_append, tokenizeFrom, hc, Bool.false_eq_true, if_false]
    rw [ih _ fun d hd => ht d (by simp [hd])]
    simp

/-- A token ends where whitespace or the end of the line follows. -/
theorem tokenizeFrom_end (T : Tables) (cur : Token) (hcur : cur ≠ []) (rest : Text)
    (hrest : ∀ c, rest.head? = some c → c ∈ T.whitespace) :
    tokenizeFrom T cur rest = cur :: tokenizeFrom T [] rest := by
  cases rest with
  | nil => simp [tokenizeFrom, endToken, hcur]
  | cons c u =>
    have hc : T.whitespace.contains c = true := whitespace_contains.mpr (hrest c rfl)
    simp only [tokenizeFrom, hc, if_true, endToken, if_neg hcur]
    rfl

/-- No character of canonical text is whitespace, in any configuration. -/
theorem not_whitespace_of_textChar (T : Tables) {c : Char} (h : c ∈ textChars) : c ∉ T.whitespace := by
  intro hw
  have hv := T.text_visible
  rw [List.filter_eq_nil_iff] at hv
  exact hv c h (whitespace_contains.mpr hw)

/-- The spelling of every name is text. -/
theorem Reg.token_text (r : Reg) : r.token ≠ [] ∧ ∀ c ∈ r.token, c ∈ textChars := by
  cases r <;> simp [Reg.token, chars, textChars]

theorem Cond.token_text (c : Cond) : c.token ≠ [] ∧ ∀ x ∈ c.token, x ∈ textChars := by
  cases c <;> simp [Cond.token, chars, textChars]

theorem Mnemonic.token_text (m : Mnemonic) : m.token ≠ [] ∧ ∀ c ∈ m.token, c ∈ textChars := by
  cases m <;> simp [Mnemonic.token, chars, textChars]

end Sys2Proof.Machine
end

