-- ==== Sys2Proof/Tests/Slice0.lean ====
section
/-! SUPPORT. Tests.

Every expected value is copied from the spec: a table of 95_test_vectors.md (its section is named), an example of a rule,
or a word written out bit by bit from R41's layouts and R40's default numbers.
The theorems named `witness_…` show, for each obligation with hypotheses, that concrete data meet them together. -/

namespace Sys2Proof.Tests

open Sys2Proof Sys2Proof.Machine Sys2Proof.Spec

/-- A line of text, split and encoded under the default configuration. -/
def enc (line : String) : EncResult := encode Tables.default (tokenize Tables.default (chars line))

/-- The canonical text of a word under the default configuration. -/
def dis (w : Word) : Text := render (decode Tables.default w)

/-- The reset machine with these calls handed to it. -/
def handed (calls : List Call) : State := { State.reset with calls := calls }

/-! ## WellFormed refuses ill-formed terms (R36) -/

theorem test_wf_refuses_flag_two :
    (Instr.load .A .B 2).wf = false ∧ (Instr.store .A .B 2).wf = false ∧ (Instr.mov .A .B 2).wf = false ∧
    (Instr.add .A .B 2).wf = false ∧ (Instr.sub .A .B 2).wf = false ∧ (Instr.cmp .A .B 2).wf = false ∧
    (Instr.and .A .B 2).wf = false ∧ (Instr.or .A .B 2).wf = false ∧ (Instr.xor .A .B 2).wf = false ∧
    (Instr.not .A .B 2).wf = false ∧ (Instr.inc .A .B 2).wf = false ∧ (Instr.dec .A .B 2).wf = false := by decide

theorem test_wf_refuses_wide_immediate :
    (Instr.ldi .A 4194304).wf = false ∧ (Instr.jmpa .C 4194304).wf = false ∧ (Instr.jmpr .C 4194304).wf = false := by
  decide

theorem test_wf_admits_the_largest :
    (Instr.add .A .B 1).wf = true ∧ (Instr.ldi .A 4194303).wf = true ∧ (Instr.jmpa .C 4194303).wf = true ∧
    (Instr.jmpr .C 4194303).wf = true ∧ Instr.nop.wf = true := by decide

/-! ## Each instruction's word: decoding, and packing back

The words are written out bit by bit: opcode, then the family's fields in R41's places. -/

theorem test_word_nop :
    decode Tables.default 0b00000000000000000000000000000000#32 = .known .nop ∧
    pack Tables.default .nop = 0b00000000000000000000000000000000#32 := by decide
theorem test_word_load :
    decode Tables.default 0b00000100000001000000000000000000#32 = .known (.load .A .B 0) ∧
    pack Tables.default (.load .A .B 0) = 0b00000100000001000000000000000000#32 := by decide
theorem test_word_store :
    decode Tables.default 0b00001000100011000000000000000000#32 = .known (.store .C .D 0) ∧
    pack Tables.default (.store .C .D 0) = 0b00001000100011000000000000000000#32 := by decide
theorem test_word_mov :
    decode Tables.default 0b00001101000101000000000000000000#32 = .known (.mov .E .F 0) ∧
    pack Tables.default (.mov .E .F 0) = 0b00001101000101000000000000000000#32 := by decide
theorem test_word_ldi :
    decode Tables.default 0b00010010100100101101011010000111#32 = .known (.ldi .K 1234567) ∧
    pack Tables.default (.ldi .K 1234567) = 0b00010010100100101101011010000111#32 := by decide
theorem test_word_add :
    decode Tables.default 0b00010100000001100000000000000000#32 = .known (.add .A .B 1) ∧
    pack Tables.default (.add .A .B 1) = 0b00010100000001100000000000000000#32 := by decide
theorem test_word_sub :
    decode Tables.default 0b00011010001001000000000000000000#32 = .known (.sub .I .J 0) ∧
    pack Tables.default (.sub .I .J 0) = 0b00011010001001000000000000000000#32 := by decide
theorem test_word_cmp :
    decode Tables.default 0b00011111110000100000000000000000#32 = .known (.cmp .P .A 1) ∧
    pack Tables.default (.cmp .P .A 1) = 0b00011111110000100000000000000000#32 := by decide
theorem test_word_and :
    decode Tables.default 0b00100011001101000000000000000000#32 = .known (.and .M .N 0) ∧
    pack Tables.default (.and .M .N 0) = 0b00100011001101000000000000000000#32 := by decide
theorem test_word_or :
    decode Tables.default 0b00100100101101100000000000000000#32 = .known (.or .C .N 1) ∧
    pack Tables.default (.or .C .N 1) = 0b00100100101101100000000000000000#32 := by decide
theorem test_word_xor :
    decode Tables.default 0b00101011110000000000000000000000#32 = .known (.xor .P .A 0) ∧
    pack Tables.default (.xor .P .A 0) = 0b00101011110000000000000000000000#32 := by decide
theorem test_word_not :
    decode Tables.default 0b00101110001001100000000000000000#32 = .known (.not .I .J 1) ∧
    pack Tables.default (.not .I .J 1) = 0b00101110001001100000000000000000#32 := by decide
theorem test_word_inc :
    decode Tables.default 0b00110000100010000000000000000000#32 = .known (.inc .C .C 0) ∧
    pack Tables.default (.inc .C .C 0) = 0b00110000100010000000000000000000#32 := by decide
theorem test_word_dec :
    decode Tables.default 0b00110110111100100000000000000000#32 = .known (.dec .L .M 1) ∧
    pack Tables.default (.dec .L .M 1) = 0b00110110111100100000000000000000#32 := by decide
theorem test_word_in :
    decode Tables.default 0b00111011010010000000000000000000#32 = .known (.portIn .N .C) ∧
    pack Tables.default (.portIn .N .C) = 0b00111011010010000000000000000000#32 := by decide
theorem test_word_out :
    decode Tables.default 0b00111111111110000000000000000000#32 = .known (.portOut .P .O) ∧
    pack Tables.default (.portOut .P .O) = 0b00111111111110000000000000000000#32 := by decide
theorem test_word_jmp :
    decode Tables.default 0b01000011011000000000000000000000#32 = .known (.jmp .N .N) ∧
    pack Tables.default (.jmp .N .N) = 0b01000011011000000000000000000000#32 := by decide
theorem test_word_jmpm :
    decode Tables.default 0b01000001111000000000000000000001#32 = .known (.jmpm .N .H) ∧
    pack Tables.default (.jmpm .N .H) = 0b01000001111000000000000000000001#32 := by decide
theorem test_word_jmpa :
    decode Tables.default 0b01000001000000000000000110010010#32 = .known (.jmpa .Z 100) ∧
    pack Tables.default (.jmpa .Z 100) = 0b01000001000000000000000110010010#32 := by decide
theorem test_word_jmpr :
    decode Tables.default 0b01000011000000000000000000101011#32 = .known (.jmpr .C 10) ∧
    pack Tables.default (.jmpr .C 10) = 0b01000011000000000000000000101011#32 := by decide

/-- 95_test_vectors.md sections 2.1 to 2.6: stray bits, and the words packed back from them. -/
theorem test_stray_bits :
    decode Tables.default 0x03FFFFFF = .known .nop ∧ decode Tables.default 0x1407FFFF = .known (.add .A .B 1) ∧
    decode Tables.default 0x1405FFFF = .known (.add .A .B 0) ∧ decode Tables.default 0x37FFFFFF = .known (.dec .P .P 1) ∧
    decode Tables.default 0x3807FFFF = .known (.portIn .A .B) ∧ decode Tables.default 0x3FFFFFFF = .known (.portOut .P .P) ∧
    decode Tables.default 0x401FFFFC = .known (.jmp .Z .A) ∧ decode Tables.default 0x400FFFFD = .known (.jmpm .AL .A) ∧
    decode Tables.default 0x43FFFFFF = .known (.jmpr .C 4194303) := by decide

/-- 95_test_vectors.md sections 2.2 and 2.5, column "canonical". -/
theorem test_canonical :
    [0x14040000, 0x14060000, 0x17FE0000, 0x04000000, 0x40000000, 0x43F00001, 0x13FFFFFF, 0x43FFFFFF].map
      (canonical Tables.default) = List.replicate 8 true ∧
    [0x14041234, 0x1407FFFF, 0x37FFFFFF, 0x34000001, 0x40000004, 0x43FFFFFC, 0x38060000, 0x02000000, 0x44000000].map
      (canonical Tables.default) = List.replicate 9 false := by decide

/-- 95_test_vectors.md section 2.8: the edges of the unassigned opcodes. -/
theorem test_unassigned :
    decode Tables.default 0x44000000 = .unknown 17 ∧ decode Tables.default 0x47FFFFFF = .unknown 17 ∧
    decode Tables.default 0x7C000000 = .unknown 31 ∧ decode Tables.default 0xFFFFFFFF = .unknown 63 ∧
    decodeTableWord 32 0x44000000 = none ∧ decodeTableWord 32 0x14040000 = some (.add .A .B 0) := by decide

/-- 95_test_vectors.md section 2.7: one word per register code and per condition code. -/
theorem test_register_codes :
    (Reg.all.map fun r => pack Tables.default (.mov r .A 0)) =
      [0x0C000000, 0x0C400000, 0x0C800000, 0x0CC00000, 0x0D000000, 0x0D400000, 0x0D800000, 0x0DC00000,
       0x0E000000, 0x0E400000, 0x0E800000, 0x0EC00000, 0x0F000000, 0x0F400000, 0x0F800000, 0x0FC00000] := by decide
theorem test_condition_codes :
    (Cond.all.map fun c => pack Tables.default (.jmp c .A)) = [0x40000000, 0x40100000, 0x40200000, 0x40300000] ∧
    (Cond.all.map fun c => pack Tables.default (.jmpa c 0)) = [0x40000002, 0x41000002, 0x42000002, 0x43000002] := by
  decide

/-! ## The encoder (95_test_vectors.md) -/

/-- Section 1, S1 to S8. -/
theorem test_source_examples :
    enc "ADD A B" = .ok 0x14040000 ∧ enc "LDI P 255" = .ok 0x13C000FF ∧ enc "JMPR C 10" = .ok 0x4300002B ∧
    enc "FOO A B" = .error .UnknownMnemonic ∧ enc "MOV A" = .error .OperandCountMismatch ∧
    enc "JMP Z A" = .ok 0x40100000 ∧ enc "JMPM Z A" = .ok 0x40100001 ∧ enc "JMPA Z 100" = .ok 0x41000192 ∧
    enc "JMPR Z 100" = .ok 0x41000193 ∧ enc "LDI A 4194304" = .error .ImmediateOutOfRange ∧
    enc "LDI A 4194303" = .ok 0x103FFFFF := by decide

/-- Section 2.2. -/
theorem test_alu_lines :
    enc "LOAD P P 1" = .ok 0x07FE0000 ∧ enc "STORE A A 1" = .ok 0x08020000 ∧ enc "MOV B A 1" = .ok 0x0C420000 ∧
    enc "SUB A A 1" = .ok 0x18020000 ∧ enc "CMP K L" = .ok 0x1EAC0000 ∧ enc "AND N C 1" = .ok 0x234A0000 ∧
    enc "OR O P" = .ok 0x27BC0000 ∧ enc "XOR H H 1" = .ok 0x29DE0000 ∧ enc "NOT B B" = .ok 0x2C440000 ∧
    enc "INC K K 1" = .ok 0x32AA0000 ∧ enc "DEC D E" = .ok 0x34D00000 ∧ enc "ADD A B 00" = .ok 0x14040000 ∧
    enc "ADD A B 0x1" = .ok 0x14060000 := by decide
theorem test_alu_failures :
    enc "ADD A B 1 1 1 1 1" = .error .OperandCountMismatch ∧ enc "ADD Q Q 9" = .error .UnknownRegister ∧
    enc "ADD AL B" = .error .UnknownRegister ∧ enc "ADD A B 1.0" = .error .InvalidImmediate ∧
    enc "ADD A B 3" = .error .ImmediateOutOfRange ∧ enc "INC C" = .error .OperandCountMismatch ∧
    enc "CMP A B C" = .error .InvalidImmediate ∧ enc "ADD a B" = .error .UnknownRegister := by decide

/-- Section 2.3. -/
theorem test_port_lines :
    enc "IN N C" = .ok 0x3B480000 ∧ enc "IN P P" = .ok 0x3BFC0000 ∧ enc "OUT P O" = .ok 0x3FF80000 ∧
    enc "OUT C N" = .ok 0x3CB40000 ∧ enc "IN A B 0" = .error .OperandCountMismatch ∧
    enc "OUT Z A" = .error .UnknownRegister := by decide

/-- Section 2.4: numerals. -/
theorem test_ldi_lines :
    enc "LDI B 0x3FFFFF" = .ok 0x107FFFFF ∧ enc "LDI B 0x3fffff" = .ok 0x107FFFFF ∧ enc "LDI C 010" = .ok 0x1080000A ∧
    enc "LDI C 0x0000000000000000000001" = .ok 0x10800001 ∧ enc "LDI N 0x2A" = .ok 0x1340002A ∧
    enc "LDI C 4294967297" = .error .ImmediateOutOfRange ∧ enc "LDI C 0XFF" = .error .InvalidImmediate ∧
    enc "LDI C 0x" = .error .InvalidImmediate ∧ enc "LDI C +5" = .error .InvalidImmediate ∧
    enc "LDI C 1_000" = .error .InvalidImmediate ∧ enc "LDI Q 99999999" = .error .UnknownRegister ∧
    enc "LDI" = .error .OperandCountMismatch := by decide
theorem test_long_numeral : enc "LDI C 99999999999999999999999999" = .error .ImmediateOutOfRange := by decide

/-- Sections 2.5 and 2.6. -/
theorem test_jump_lines :
    enc "JMP C C" = .ok 0x40B00000 ∧ enc "JMP N N" = .ok 0x43600000 ∧ enc "JMPM C P" = .ok 0x43F00001 ∧
    enc "JMPA N 0x10" = .ok 0x42000042 ∧ enc "JMPR N 0x3FFFFF" = .ok 0x42FFFFFF ∧
    enc "JMP A AL" = .error .UnknownRegister ∧ enc "JMP A A" = .error .UnknownCondition ∧
    enc "JMPA Z loop" = .error .InvalidImmediate ∧ enc "JMPR C 0x400000" = .error .ImmediateOutOfRange := by decide

/-- Section 2.9: failure priority. -/
theorem test_priority :
    enc "FOO A B C D E" = .error .UnknownMnemonic ∧ enc "JMP X" = .error .OperandCountMismatch ∧
    enc "JMP X Q" = .error .UnknownRegister ∧ enc "LDI Q zz" = .error .UnknownRegister ∧
    enc "JMPA X zz" = .error .UnknownCondition ∧ enc "JMPA X 4194304" = .error .UnknownCondition ∧
    enc "ADD A B zz" = .error .InvalidImmediate ∧ enc "ADD A B 2" = .error .ImmediateOutOfRange := by decide

/-- Section 2.10: the tokenizer. -/
theorem test_tokenizer :
    tokenize Tables.default (chars "  ADD\tA   B \r\n") = [chars "ADD", chars "A", chars "B"] ∧
    tokenize Tables.default (chars " \t ") = [] ∧ tokenize Tables.default [] = [] ∧
    tokenize Tables.default (chars "ADD A, B") = [chars "ADD", chars "A,", chars "B"] ∧
    enc "" = .error .UnknownMnemonic ∧ enc "ADD A B ;" = .error .InvalidImmediate ∧
    enc "loop: NOP" = .error .UnknownMnemonic ∧ enc "ADD A,B" = .error .OperandCountMismatch := by decide

/-- R152's numbers (D4). -/
theorem test_failure_numbers :
    [EncodeError.UnknownMnemonic, .OperandCountMismatch, .UnknownRegister, .UnknownCondition, .InvalidImmediate,
      .ImmediateOutOfRange].map EncodeError.number = [1, 2, 3, 4, 5, 6] := by decide

/-! ## Text (95_test_vectors.md sections 2 and 3, R92, R94) -/

theorem test_text :
    dis 0 = chars "NOP" ∧ dis 0x14060000 = chars "ADD A B 1" ∧ dis 0x14041234 = chars "ADD A B" ∧
    dis 0x38060000 = chars "IN A B" ∧ dis 0x1292D687 = chars "LDI K 1234567" ∧ dis 0x43F00001 = chars "JMPM C P" ∧
    dis 0x43FFFFFE = chars "JMPA C 4194303" ∧ dis 0x44000001 = chars "??? 010001" ∧
    dis 0xFFFFFFFF = chars "??? 111111" := by decide

/-- Section 3, P3: a batch with failures, result `i` answers line `i`. -/
theorem test_batch_with_failures :
    encodeBatch Tables.default
      (["MOV A B", "MOV A", "FOO", "LDI Q 1", "JMP AL", "JMPA XX 5", "LDI A 0x400000", "ADD A B 7", "LDI A ten", "",
        "XOR P P 1", "nop", "NOP", "  JMPR  C \t 10  "].map chars) =
    [.ok 0x0C040000, .error .OperandCountMismatch, .error .UnknownMnemonic, .error .UnknownRegister,
      .error .OperandCountMismatch, .error .UnknownCondition, .error .ImmediateOutOfRange, .error .ImmediateOutOfRange,
      .error .InvalidImmediate, .error .UnknownMnemonic, .ok 0x2BFE0000, .error .UnknownMnemonic, .ok 0x00000000,
      .ok 0x4300002B] := by decide

/-- Section 3, P4: a decode batch never fails. -/
theorem test_decode_batch :
    decodeBatch Tables.default [0x13C000FF, 0x44000000, 0x1404FFFF, 0x401FFFFD, 0x3C07FFFF, 0x37FE0000] =
      [.known (.ldi .P 255), .unknown 17, .known (.add .A .B 0), .known (.jmpm .Z .A), .known (.portOut .A .B),
        .known (.dec .P .P 1)] := by decide

/-! ## One step -/

/-- The answers after one step. -/
def answersAfter : Outcome → Option (List Answer)
  | .next s => some s.answers
  | .fault _ => none
  | .refused _ => none

theorem test_step_fetched_word :
    answersAfter (step (State.reset.withFetchWord 32 0x4300002B)) =
      some [.decoded ⟨.known (.jmpr .C 10), 16, chars "JMPR C 10"⟩] := by decide
theorem test_step_unassigned :
    answersAfter (step (handed [.word 0x48000000])) = some [.decoded ⟨.unknown 18, 18, chars "??? 010010"⟩] := by decide
theorem test_step_line :
    answersAfter (step (handed [.line (chars "DEC A A"), .word 0])) = some [.encoded (.ok 0x34000000)] := by decide
theorem test_step_failed_line :
    answersAfter (step (handed [.tokens [chars "JMP", chars "X", chars "Q"]])) =
      some [.encoded (.error .UnknownRegister)] := by decide

/-! ## Witnesses: data that meet the hypotheses of each obligation, at the edges of their ranges

Obligations without hypotheses (equivalences for all inputs, closed facts) need none and are not named here. -/

theorem witness_OpcodePartitionAndTableBijectivity :
    opcodeName Tables.default 17 = none ∧ opcodeName Tables.default 63 = none ∧
    opcodeName Tables.default 0 = some .NOP ∧ opcodeName Tables.default 16 = some .JMP := by decide

theorem witness_RegisterNamesExact :
    regCodeOfToken Tables.default (chars "A") = some 0 ∧ regCodeOfToken Tables.default (chars "P") = some 15 ∧
    regCodeOfToken Tables.default (chars "Q") = none ∧ regCodeOfToken Tables.default (chars "AA") = none := by decide

theorem witness_ConditionNamesExact :
    condCodeOfToken Tables.default (chars "AL") = some 0 ∧ condCodeOfToken Tables.default (chars "C") = some 3 ∧
    condCodeOfToken Tables.default (chars "NZ") = none := by decide

theorem witness_MnemonicLookupIsTheTable :
    mnemonicLookup (chars "NOP") = some (.NOP, .NoOperand, none) ∧
    mnemonicLookup (chars "JMPR") = some (.JMP, .JumpDirect, some 3) ∧ mnemonicLookup (chars "JMPX") = none := by decide

theorem witness_LayoutsPartitionTheWord :
    (⟨.flag, 17, 17⟩ : Field) ∈ Family.RegisterALU.fields ∧ (⟨.mode, 1, 0⟩ : Field) ∈ Family.JumpIndirect.fields ∧
    (⟨.mode, 1, 0⟩ : Field) ∈ Family.JumpDirect.fields := by decide

theorem witness_NoOperandPackUnpack :
    opcodeName Tables.default ((0#32).extractLsb 31 26) = some .NOP ∧
    opcodeName Tables.default ((0x03FFFFFF#32).extractLsb 31 26) = some .NOP := by decide

/-- For each of the twelve members, with both flags and every bit below the opcode field 0 or 1. -/
theorem witness_RegisterALUPackUnpack :
    0 ≤ 1 ∧ (1 : Nat) ≤ 1 ∧ ∀ r ∈ aluMembers,
      opcodeName Tables.default ((opcodeCode Tables.default r.2.1 ++ 0#26 : Word).extractLsb 31 26) = some r.2.1 ∧
      opcodeName Tables.default ((opcodeCode Tables.default r.2.1 ++ 0x3FFFFFF#26 : Word).extractLsb 31 26) =
        some r.2.1 := by
  refine ⟨by decide, by decide, ?_⟩
  simp only [aluMembers, List.forall_mem_cons]
  decide

theorem witness_PortIOPackUnpack :
    ∀ r ∈ portMembers,
      opcodeName Tables.default ((opcodeCode Tables.default r.2.1 ++ 0#26 : Word).extractLsb 31 26) = some r.2.1 ∧
      opcodeName Tables.default ((opcodeCode Tables.default r.2.1 ++ 0x3FFFFFF#26 : Word).extractLsb 31 26) =
        some r.2.1 := by
  simp only [portMembers, List.forall_mem_cons]
  decide

theorem witness_LoadImmediatePackUnpack :
    0 ≤ 2 ^ 22 - 1 ∧ 4194303 ≤ 2 ^ 22 - 1 ∧
    opcodeName Tables.default ((0x10000000#32).extractLsb 31 26) = some .LDI ∧
    opcodeName Tables.default ((0x13FFFFFF#32).extractLsb 31 26) = some .LDI := by decide

/-- JMP words of all four modes, with the operand bits all 0 and all 1. -/
theorem witness_JumpPackUnpack :
    4194303 ≤ 2 ^ 22 - 1 ∧
    (∀ m : BitVec 2, opcodeName Tables.default ((16#6 ++ 0#24 ++ m : Word).extractLsb 31 26) = some .JMP ∧
      (16#6 ++ 0#24 ++ m : Word).extractLsb 1 0 = m) ∧
    ∀ m : BitVec 2, opcodeName Tables.default ((16#6 ++ 0xFFFFFF#24 ++ m : Word).extractLsb 31 26) = some .JMP ∧
      (16#6 ++ 0xFFFFFF#24 ++ m : Word).extractLsb 1 0 = m := by decide

theorem witness_JumpModeDispatch :
    (opcodeName Tables.default ((0x40100001#32).extractLsb 31 26) = some .JMP ∧ (0x40100001#32).getLsbD 1 = false) ∧
    (opcodeName Tables.default ((0x43FFFFFE#32).extractLsb 31 26) = some .JMP ∧ (0x43FFFFFE#32).getLsbD 1 = true) ∧
    (opcodeName Tables.default ((0x10000000#32).extractLsb 31 26) ≠ some .JMP ∧
      (0x10000002#32).extractLsb 31 26 = (0x10000000#32).extractLsb 31 26) := by decide

theorem witness_OpcodeFieldDecidesUnknown :
    opcodeName Tables.default ((0x44000000#32).extractLsb 31 26) = none ∧
    opcodeName Tables.default ((0x43FFFFFF#32).extractLsb 31 26) = some .JMP := by decide

/-- Well-formed instructions at both ends of their operands' ranges. -/
theorem witness_DecodeOfPackIsIdentity :
    Instr.nop.WellFormed ∧ (Instr.add .A .B 0).WellFormed ∧ (Instr.dec .P .P 1).WellFormed ∧
    (Instr.ldi .A 0).WellFormed ∧ (Instr.jmpr .C 4194303).WellFormed := by decide

theorem witness_PackOfDecodeClearsUnusedBits :
    decode Tables.default 0x1407FFFF = .known (.add .A .B 1) ∧ canonical Tables.default 0x1407FFFF = false ∧
    decode Tables.default 0x14060000 = .known (.add .A .B 1) ∧ canonical Tables.default 0x14060000 = true := by decide

/-- The lowest and the highest unused bit of each family that has any. -/
theorem witness_UnusedBitsIgnoredAndZero :
    (Instr.nop.family.unusedBit 0 = true ∧ Instr.nop.family.unusedBit 25 = true) ∧
    ((Instr.add .A .B 1).family.unusedBit 0 = true ∧ (Instr.add .A .B 1).family.unusedBit 16 = true ∧
      (Instr.add .A .B 1).family.unusedBit 17 = false) ∧
    ((Instr.portIn .A .B).family.unusedBit 0 = true ∧ (Instr.portIn .A .B).family.unusedBit 17 = true) ∧
    ((Instr.jmp .Z .A).family.unusedBit 2 = true ∧ (Instr.jmp .Z .A).family.unusedBit 19 = true) ∧
    (Instr.add .A .B 1).WellFormed ∧ decode Tables.default 0x14060000 = .known (.add .A .B 1) := by decide

theorem witness_DecodedFieldsAreTheWordsBits :
    decode Tables.default 0x43FFFFFD = .known (.jmpm .C .P) ∧
    (⟨.cond, 21, 20⟩ : Field) ∈ (Instr.jmpm .C .P).family.fields := by decide

theorem witness_PackPlacesFieldsInjectively :
    (Instr.add .A .B 1).WellFormed ∧ (⟨.flag, 17, 17⟩ : Field) ∈ (Instr.add .A .B 1).family.fields ∧
    pack Tables.default (.add .A .B 1) = pack Tables.default (.add .A .B 1) := by decide

theorem witness_OperandCountMismatchExactly :
    IsLine [chars "MOV", chars "A"] .MOV [chars "A"] ∧ [chars "A"].length ∉ operandCounts Mnemonic.MOV.family :=
  ⟨⟨_, rfl, by decide⟩, by decide⟩

theorem witness_UnknownRegisterExactly :
    IsLine [chars "LDI", chars "5", chars "C"] .LDI [chars "5", chars "C"] ∧
    ∃ t ∈ (roles .LoadImmediate [chars "5", chars "C"]).regs, regCodeOfToken Tables.default t = none :=
  ⟨⟨_, rfl, by decide⟩, by decide⟩

theorem witness_UnknownConditionExactly :
    IsLine [chars "JMP", chars "X", chars "A"] .JMP [chars "X", chars "A"] ∧
    (∀ t ∈ (roles .JumpIndirect [chars "X", chars "A"]).regs, regCodeOfToken Tables.default t ≠ none) ∧
    ∃ t ∈ (roles .JumpIndirect [chars "X", chars "A"]).conds, condCodeOfToken Tables.default t = none :=
  ⟨⟨_, rfl, by decide⟩, by decide, by decide⟩

theorem witness_InvalidImmediateExactly :
    Mnemonic.ADD.family = .RegisterALU ∧ parseNum (chars "0X1") = none ∧ parseNum (chars "") = none := by decide

/-- The values on both sides of the two limits: 1 and 2 for a flag, 4194303 and 4194304 for an immediate. -/
theorem witness_ImmediateOutOfRangeExactly :
    parseNum (chars "1") = some 1 ∧ parseNum (chars "2") = some 2 ∧ parseNum (chars "4194303") = some 4194303 ∧
    parseNum (chars "0x400000") = some 4194304 ∧ enc "ADD A B 1" ≠ .error .ImmediateOutOfRange ∧
    enc "JMPA C 4194303" ≠ .error .ImmediateOutOfRange := by decide

theorem witness_ProperLinesEncode :
    (parseNum (chars "0x0") = some 0 ∧ 0 ≤ 1) ∧ (parseNum (chars "01") = some 1 ∧ 1 ≤ 1) ∧
    (parseNum (chars "0x3fffff") = some 4194303 ∧ 4194303 ≤ 4194303) := by decide

/-- One sequence per form of the grammar, and one of neither. -/
theorem witness_NumeralsAreTheGrammar :
    parseNum (chars "0xfF") = some 255 ∧ parseNum (chars "007") = some 7 ∧ parseNum (chars "0x") = none := by decide

theorem witness_OnlyFirstFourTokensMatter :
    [chars "ADD", chars "A", chars "B", chars "1", chars "x"].length =
      [chars "ADD", chars "A", chars "B", chars "1", chars "y"].length ∧
    [chars "ADD", chars "A", chars "B", chars "1", chars "x"].take 4 =
      [chars "ADD", chars "A", chars "B", chars "1", chars "y"].take 4 ∧
    5 ≤ [chars "ADD", chars "A", chars "B", chars "1", chars "x"].length := by decide

theorem witness_EncodedWordDecodesToParsedLine :
    encode Tables.default [chars "ADD", chars "A", chars "B", chars "00"] = .ok 0x14040000 := by decide

/-- Whitespace, a token, and a rest: the end of the line, and whitespace. -/
theorem witness_TokenizeTakesMaximalRuns :
    (∀ c ∈ chars " \t\n", c ∈ Tables.default.whitespace) ∧ chars "A," ≠ [] ∧
    (∀ c ∈ chars "A,", c ∉ Tables.default.whitespace) ∧
    (∀ c, ([] : Text).head? = some c → c ∈ Tables.default.whitespace) ∧
    ∀ c, (chars "\rB").head? = some c → c ∈ Tables.default.whitespace := by
  have hw : ∀ c, Tables.default.whitespace.contains c = true → c ∈ Tables.default.whitespace :=
    fun _ => List.contains_iff_mem.mp
  refine ⟨?_, by decide, ?_, by simp, ?_⟩
  · have h : (chars " \t\n").all Tables.default.whitespace.contains = true := by decide
    exact fun c hc => hw c (List.all_eq_true.mp h c hc)
  · have h : (chars "A,").all (fun c => !Tables.default.whitespace.contains c) = true := by decide
    intro c hc hm
    have := List.all_eq_true.mp h c hc
    simp [hm] at this
  intro c hc
  have h : c = '\r' := by simpa [chars] using hc.symm
  subst h
  decide

theorem witness_CanonicalTokensParseBack :
    (Instr.ldi .P 4194303).WellFormed ∧ (Instr.add .A .B 0).WellFormed ∧ (Instr.add .A .B 1).WellFormed := by decide

theorem witness_CanonicalTextAssemblesBack :
    canonical Tables.default 0x14060000 = true ∧ canonical Tables.default 0x43FFFFFF = true := by decide

theorem witness_DecimalReadsBack : 0 < 1 ∧ decimal 10 = chars "10" := by decide

theorem witness_StepRunsTheDecodedInstruction :
    (handed [.word 0x14060000, .word 0]).calls = .word 0x14060000 :: [.word 0] ∧
    decode (handed [.word 0x14060000, .word 0]).tables 0x14060000 = .known (.add .A .B 1) ∧
    decode State.reset.tables (tableWord 32 0x4300002B) = .known (.jmpr .C 10) := ⟨rfl, by decide, by decide⟩

theorem witness_StepAnswersUnassignedOpcode :
    (handed [.word 0x44000000]).calls = .word 0x44000000 :: [] ∧
    opcodeName (handed [.word 0x44000000]).tables ((0x44000000#32).extractLsb 31 26) = none := ⟨rfl, by decide⟩

theorem witness_StepAnswersLines :
    (handed [.tokens [chars "NOP"], .word 0]).calls = .tokens [chars "NOP"] :: [.word 0] ∧
    (handed [.line (chars "NOP")]).calls = .line (chars "NOP") :: [] := ⟨rfl, rfl⟩

theorem witness_IdleStepChangesNothing : State.reset.calls = [] := rfl

theorem witness_RegisterALUCompletes : (0 : Nat) ≤ 1 ∧ (1 : Nat) ≤ 1 := by decide

/-- An instruction of each family has a next state from reset. -/
theorem witness_InstructionFrame :
    (∃ t, exec .nop State.reset = .next t) ∧ (∃ t, exec (.store .A .B 1) State.reset = .next t) ∧
    (∃ t, exec (.portOut .A .B) State.reset = .next t) ∧ (∃ t, exec (.ldi .A 5) State.reset = .next t) ∧
    (∃ t, exec (.jmpm .C .P) State.reset = .next t) ∧ ∃ t, exec (.jmpr .AL 0) State.reset = .next t :=
  ⟨⟨_, rfl⟩, ⟨_, rfl⟩, ⟨_, rfl⟩, ⟨_, rfl⟩, ⟨_, rfl⟩, ⟨_, rfl⟩⟩

theorem witness_StepIsTheCombinationalAnswer :
    (handed [.word 0xFFFFFFFF]).calls = .word 0xFFFFFFFF :: [] ∧
    (handed [.line (chars "NOP"), .word 0]).calls = .line (chars "NOP") :: [.word 0] := ⟨rfl, rfl⟩

theorem witness_FailureIsTheCallsValue :
    (handed [.tokens [chars "FOO"]]).calls = .tokens [chars "FOO"] :: [] ∧
    encode (handed [.tokens [chars "FOO"]]).tables [chars "FOO"] = .error .UnknownMnemonic := ⟨rfl, by decide⟩

theorem witness_FailureLeavesNoTrace :
    (handed [.tokens [], .word 0]).calls = .tokens [] :: .word 0 :: [] ∧
    answerOf (handed [.tokens [], .word 0]).tables (.tokens []) = .encoded (.error .UnknownMnemonic) := ⟨rfl, by decide⟩

/-- Two states that share the tables and the first call, and nothing else. -/
theorem witness_AnswersAreIndependent :
    (handed [.word 0]).tables = ({ handed [.word 0, .word 1] with answers := [.encoded (.ok 7)] } : State).tables ∧
    (handed [.word 0]).calls = .word 0 :: [] ∧
    ({ handed [.word 0, .word 1] with answers := [.encoded (.ok 7)] } : State).calls = .word 0 :: [.word 1] :=
  ⟨rfl, rfl, rfl⟩

theorem witness_BatchIsAnsweredInOrder :
    (handed [.line (chars "FOO"), .line (chars "NOP")]).calls = [chars "FOO", chars "NOP"].map .line ∧
    0 ≤ (handed [.line (chars "FOO"), .line (chars "NOP")]).calls.length ∧
    2 ≤ (handed [.line (chars "FOO"), .line (chars "NOP")]).calls.length := ⟨rfl, by decide, by decide⟩

/-- A state that has answered and has a call waiting, both proper, meets the invariant, and steps. -/
theorem witness_StepKeepsTheInvariant :
    State.Inv { handed [.tokens [chars "ADD", chars "A", chars "B"]] with
      answers := [.encoded (.ok 0x14040000), .encoded (.error .UnknownMnemonic),
        .decoded ⟨.known (.add .A .B 1), 5, chars "ADD A B 1"⟩, .decoded ⟨.unknown 17, 17, chars "??? 010001"⟩] } ∧
    ∃ t, step { handed [.tokens [chars "ADD", chars "A", chars "B"]] with
      answers := [.encoded (.ok 0x14040000), .encoded (.error .UnknownMnemonic),
        .decoded ⟨.known (.add .A .B 1), 5, chars "ADD A B 1"⟩, .decoded ⟨.unknown 17, 17, chars "??? 010001"⟩] } =
      .next t := by
  refine ⟨⟨?_, ?_⟩, ⟨_, rfl⟩⟩
  · simp only [List.forall_mem_cons, List.not_mem_nil, false_implies, implies_true, and_true]
    refine ⟨?_, trivial, ⟨?_, ?_, ?_⟩, ⟨?_, ?_, ?_⟩⟩
    · show canonical _ _ = true
      decide
    all_goals decide
  · simp only [handed, List.forall_mem_cons, List.not_mem_nil, false_implies, implies_true, and_true]
    show ∀ t ∈ _, _
    decide

theorem witness_ResetHasTheInvariant :
    State.reset.Inv ∧ Call.Proper State.reset.tables (.word 0xFFFFFFFF) ∧
    Call.Proper State.reset.tables (.tokens [chars "NOP"]) := by
  refine ⟨⟨by simp, by simp⟩, trivial, ?_⟩
  show ∀ t ∈ _, _
  decide

end Sys2Proof.Tests
end

/-! ## The name tables and the words of LDI (R20, R40, R45) -/

namespace Sys2Proof

/-- R20's round trip: the place of the name bound to a code is that code, because REG_MAP has no repeats. -/
@[simp] theorem regCode_regName (T : Tables) (c : BitVec 4) : regCode T (regName T c) = c := by
  unfold regCode regName
  rw [T.regs_nodup.idxOf_getElem, BitVec.ofNat_toNat, BitVec.setWidth_eq]

/-- R40's round trip: the place of the name bound to an assigned code is that code, because OPCODE_MAP has no repeats. -/
theorem opcodeCode_of_opcodeName {T : Tables} {c : BitVec 6} {op : OpcodeName} (h : opcodeName T c = some op) :
    opcodeCode T op = c := by
  obtain ⟨hc, rfl⟩ := List.getElem?_eq_some_iff.mp h
  unfold opcodeCode
  rw [T.opcodes_nodup.idxOf_getElem, BitVec.ofNat_toNat, BitVec.setWidth_eq]

/-- For a 22-bit immediate the word is the union of the shifted fields itself: nothing is lost above bit 31 (R45). -/
theorem packLoadImmediate_toNat_eq_or (T : Tables) (dst : Reg) {imm : Nat} (h : imm ≤ maxImm) :
    (packLoadImmediate T dst imm).toNat =
      (opcodeCode T .LDI).toNat <<< 26 ||| (regCode T dst).toNat <<< 22 ||| imm := by
  have himm : imm < 2 ^ 22 := Nat.lt_succ_of_le h
  have hdst : (regCode T dst).toNat <<< 22 < 2 ^ 26 := Nat.shiftLeft_lt (regCode T dst).isLt
  have hop : (opcodeCode T .LDI).toNat <<< 26 < 2 ^ 32 := Nat.shiftLeft_lt (opcodeCode T .LDI).isLt
  unfold packLoadImmediate
  rw [BitVec.toNat_ofNat]
  exact Nat.mod_eq_of_lt (Nat.or_lt_two_pow (Nat.or_lt_two_pow hop (by omega)) (by omega))

/-- A 22-bit immediate field holds no number above `maxImm` (R48). -/
theorem extractLsb_21_0_le_maxImm (w : Word) : (w.extractLsb 21 0).toNat ≤ maxImm :=
  Nat.le_of_lt_succ (w.extractLsb 21 0).isLt

/-- A word with LDI's opcode unpacks to its register and immediate fields (R45). -/
theorem unpack_LDI (T : Tables) (w : Word) :
    unpack T .LDI w = .ldi (regName T (w.extractLsb 25 22)) (w.extractLsb 21 0).toNat := by
  simp only [unpack, unpackLoadImmediate, unpackReg_25_22, extractLsb_toNat_eq_bits]

/-- Opcode, `dst` and `imm` fill all 32 bits, so a word with LDI's opcode is the packing of its own fields (R45). -/
theorem packLoadImmediate_of_fields {T : Tables} {w : Word} (h : opcodeName T (opcodeField w) = some .LDI) :
    packLoadImmediate T (regName T (w.extractLsb 25 22)) (w.extractLsb 21 0).toNat = w := by
  apply BitVec.eq_of_toNat_eq
  rw [packLoadImmediate_toNat T _ (extractLsb_21_0_le_maxImm w), opcodeCode_of_opcodeName h, regCode_regName,
    opcodeField_toNat, extractLsb_toNat_eq_bits, extractLsb_toNat_eq_bits]
  unfold bits
  omega

/-- Settles O10: packing from the bound on each shifted field, and the converse because the fields leave no bit out. -/
theorem loadImmediatePackUnpack : Obligations.LoadImmediatePackUnpack := by
  unfold Obligations.LoadImmediatePackUnpack
  intro T
  refine ⟨fun dst imm himm => packLoadImmediate_toNat_eq_or T dst himm, fun w hop => ?_⟩
  rw [extractLsb_eq_opcodeField] at hop
  refine ⟨?_, _, _, extractLsb_21_0_le_maxImm w, packLoadImmediate_of_fields hop⟩
  rw [decode_of_name hop, unpack_LDI]

end Sys2Proof

/-! ## The decoder: its tables, the opcode field, and the packing read back (R87, R89, R95, R98) -/

namespace Sys2Proof

open Machine

/-- R40's other round trip: a name stands at its own place in OPCODE_MAP, because every name has one. -/
@[simp] theorem opcodeName_opcodeCode (T : Tables) (op : OpcodeName) : opcodeName T (opcodeCode T op) = some op := by
  unfold opcodeName
  rw [opcodeCode_toNat]
  exact List.getElem?_idxOf (T.mem_opcodes op)

/-- R19's round trip: a name stands at its own place in REG_MAP. -/
@[simp] theorem regName_regCode (T : Tables) (r : Reg) : regName T (regCode T r) = r := by
  simp only [regName, regCode_toNat, List.getElem_idxOf]

/-- R21's round trip: a name stands at its own place in COND_MAP. -/
@[simp] theorem condName_condCode (T : Tables) (x : Cond) : condName T (condCode T x) = x := by
  simp only [condName, condCode_toNat, List.getElem_idxOf]

/-- R22's round trip: the place of the name bound to a code is that code, because COND_MAP has no repeats. -/
@[simp] theorem condCode_condName (T : Tables) (c : BitVec 2) : condCode T (condName T c) = c := by
  unfold condCode condName
  rw [T.conds_nodup.idxOf_getElem, BitVec.ofNat_toNat, BitVec.setWidth_eq]

/-- The unassigned codes are the ones past the end of OPCODE_MAP (R40, 90_conflicts.md C1). -/
theorem opcodeName_eq_none_iff {T : Tables} {c : BitVec 6} : opcodeName T c = none ↔ 17 ≤ c.toNat := by
  rw [opcodeName, List.getElem?_eq_none_iff, T.opcodes_length]

theorem opcodeName_isSome_eq (T : Tables) (c : BitVec 6) : (opcodeName T c).isSome = decide (c.toNat < 17) := by
  rw [Bool.eq_iff_iff, ← Option.ne_none_iff_isSome, Ne, opcodeName_eq_none_iff, decide_eq_true_iff, Nat.not_le]

/-- The opcode field of a word written as opcode and low bits (R38). -/
theorem opcodeField_append (c : BitVec 6) (low : BitVec 26) : opcodeField (c ++ low) = c := by
  apply BitVec.eq_of_toNat_eq
  have hlow := low.isLt
  rw [opcodeField_toNat, BitVec.toNat_append, shift_or_eq_add hlow]
  omega

/-- Settles O1: the assigned codes are the places of OPCODE_MAP, and a table without repeats that holds every name is
read back from either side. -/
theorem opcodePartitionAndTableBijectivity : Obligations.OpcodePartitionAndTableBijectivity := by
  unfold Obligations.OpcodePartitionAndTableBijectivity
  intro T
  refine ⟨?_, fun c hc low => ?_, opcodeName_opcodeCode T, fun c op => opcodeCode_of_opcodeName, regName_regCode T,
    regCode_regName T, condName_condCode T, condCode_condName T⟩
  · have hassigned : ∀ c ∈ List.range 64, (opcodeName T (BitVec.ofNat 6 c)).isSome = decide (c < 17) := by
      intro c hc
      have hlt := List.mem_range.mp hc
      rw [opcodeName_isSome_eq, BitVec.toNat_ofNat, Nat.mod_eq_of_lt hlt]
    rw [List.filter_congr hassigned]
    decide
  · have hfield := opcodeField_append c low
    rw [decode_of_none (hfield.symm ▸ hc), hfield]

/-- An assigned opcode gives the family that the catalog selects by it and `w[1]` (R35, R37). -/
theorem familyOfWord_of_name {T : Tables} {w : Word} {op : OpcodeName} (h : opcodeName T (opcodeField w) = some op) :
    familyOfWord T w = some (familyOf op (bits w 1 1)) := by
  rw [familyOfWord, h, Option.map_some]

/-- Settles O13: the length of OPCODE_MAP decides, and an assigned opcode unpacks to its own name and family. -/
theorem opcodeFieldDecidesUnknown : Obligations.OpcodeFieldDecidesUnknown := by
  unfold Obligations.OpcodeFieldDecidesUnknown
  intro T w
  rw [extractLsb_eq_opcodeField]
  refine ⟨opcodeName_eq_none_iff, decode_of_none, fun op hop => ?_, fun c => rfl⟩
  refine ⟨unpack T op w, decode_of_name hop, unpack_opName T op w, ?_⟩
  rw [unpack_family, familyOfWord_of_name hop]

/-- `w[k:k]` is bit `k`. -/
theorem bits_self (w : Word) (k : Nat) : bits w k k = (w.getLsbD k).toNat := by
  rw [bits, Nat.sub_self, Nat.zero_add, Nat.pow_one, BitVec.getLsbD, Nat.toNat_testBit]

/-- `w[1]` clear: `w[0]` picks JMP or JMPM (R47). -/
theorem unpackJump_indirect (T : Tables) {w : Word} (h : w.getLsbD 1 = false) :
    unpackJump T w =
      if w.getLsbD 0 then unpackJumpIndirect T .jmpm w else unpackJumpIndirect T .jmp w := by
  unfold unpackJump
  rw [bits_self, bits_self, h]
  cases w.getLsbD 0 <;> rfl

/-- `w[1]` set: `w[0]` picks JMPA or JMPR (R47). -/
theorem unpackJump_direct (T : Tables) {w : Word} (h : w.getLsbD 1 = true) :
    unpackJump T w = if w.getLsbD 0 then unpackJumpDirect T .jmpr w else unpackJumpDirect T .jmpa w := by
  unfold unpackJump
  rw [bits_self, bits_self, h]
  cases w.getLsbD 0 <;> rfl

/-- Only JMP's family depends on the mode (R37, R89). -/
theorem familyOf_eq_of_ne_JMP {op : OpcodeName} (h : op ≠ .JMP) (m m' : Nat) : familyOf op m = familyOf op m' := by
  cases op with
  | JMP => exact absurd rfl h
  | _ => rfl

/-- Away from JMP the opcode field alone gives the family of a word (R89). -/
theorem familyOfWord_congr {T : Tables} {w w' : Word} (hne : opcodeName T (opcodeField w) ≠ some .JMP)
    (hfield : opcodeField w' = opcodeField w) : familyOfWord T w' = familyOfWord T w := by
  unfold familyOfWord
  rw [hfield]
  cases hop : opcodeName T (opcodeField w) with
  | none => rfl
  | some op =>
    have hop_ne : op ≠ .JMP := fun h => hne (h ▸ hop)
    rw [Option.map_some, Option.map_some, familyOf_eq_of_ne_JMP hop_ne]

/-- Settles O12: both mode bits are read off the word, and no other opcode's family looks at them. -/
theorem jumpModeDispatch : Obligations.JumpModeDispatch := by
  unfold Obligations.JumpModeDispatch
  intro T w
  simp only [extractLsb_eq_opcodeField]
  refine ⟨fun hop => ?_, fun hne w' => familyOfWord_congr hne⟩
  have hdec : decode T w = .known (unpackJump T w) := decode_of_name hop
  rw [familyOfWord_of_name hop, bits_self, hdec]
  refine ⟨fun h1 => ?_, fun h1 => ?_⟩
  · rw [h1, unpackJump_indirect T h1]
    exact ⟨rfl, _, _, rfl⟩
  · rw [h1, unpackJump_direct T h1]
    exact ⟨rfl, _, _, rfl⟩

/-- A word whose top six bits number an opcode name decodes by that name (R38, R40). -/
theorem opcodeName_of_opcode_bits {T : Tables} {w : Word} {op : OpcodeName}
    (h : w.toNat / 2 ^ 26 = (opcodeCode T op).toNat) : opcodeName T (opcodeField w) = some op := by
  have hfield : opcodeField w = opcodeCode T op := BitVec.eq_of_toNat_eq (by rw [opcodeField_toNat, h])
  rw [hfield, opcodeName_opcodeCode]

/-- A field that holds a register's code reads as that register (R90). -/
theorem unpackReg_of_bits {T : Tables} {w : Word} {hi lo : Nat} {r : Reg} (h : bits w hi lo = (regCode T r).toNat) :
    unpackReg T w hi lo = r := by
  rw [unpackReg, h, BitVec.ofNat_toNat, BitVec.setWidth_eq, regName_regCode]

/-- A field that holds a condition's code reads as that condition (R90). -/
theorem unpackCond_of_bits {T : Tables} {w : Word} {hi lo : Nat} {c : Cond} (h : bits w hi lo = (condCode T c).toNat) :
    unpackCond T w hi lo = c := by
  rw [unpackCond, h, BitVec.ofNat_toNat, BitVec.setWidth_eq, condName_condCode]

/-! ### Each family's packing, read back -/

theorem decode_pack_nop (T : Tables) : decode T (pack T .nop) = .known .nop := by
  have hop : opcodeName T (opcodeField (pack T .nop)) = some .NOP := by rw [pack_nop]; exact T.opcodes_nop
  exact decode_of_name hop

theorem decode_packRegisterALU {T : Tables} {op : OpcodeName} {mk : Reg → Reg → Nat → Instr}
    (hunpack : unpack T op = unpackRegisterALU T mk) (src dst : Reg) {flag : Nat} (h : flag ≤ 1) :
    decode T (packRegisterALU T op src dst flag) = .known (mk src dst flag) := by
  have hw := packRegisterALU_toNat T op src dst h
  have hsrc := (regCode T src).isLt
  have hdst := (regCode T dst).isLt
  generalize packRegisterALU T op src dst flag = w at hw ⊢
  have hop : w.toNat / 2 ^ 26 = (opcodeCode T op).toNat := by omega
  have hsrc_bits : bits w 25 22 = (regCode T src).toNat := by unfold bits; omega
  have hdst_bits : bits w 21 18 = (regCode T dst).toNat := by unfold bits; omega
  have hflag_bits : bits w 17 17 = flag := by unfold bits; omega
  rw [decode_of_name (opcodeName_of_opcode_bits hop), hunpack, unpackRegisterALU, unpackReg_of_bits hsrc_bits,
    unpackReg_of_bits hdst_bits, hflag_bits]

theorem decode_packPortIO {T : Tables} {op : OpcodeName} {mk : Reg → Reg → Instr}
    (hunpack : unpack T op = unpackPortIO T mk) (src dst : Reg) :
    decode T (packPortIO T op src dst) = .known (mk src dst) := by
  have hw := packPortIO_toNat T op src dst
  have hsrc := (regCode T src).isLt
  have hdst := (regCode T dst).isLt
  generalize packPortIO T op src dst = w at hw ⊢
  have hop : w.toNat / 2 ^ 26 = (opcodeCode T op).toNat := by omega
  have hsrc_bits : bits w 25 22 = (regCode T src).toNat := by unfold bits; omega
  have hdst_bits : bits w 21 18 = (regCode T dst).toNat := by unfold bits; omega
  rw [decode_of_name (opcodeName_of_opcode_bits hop), hunpack, unpackPortIO, unpackReg_of_bits hsrc_bits,
    unpackReg_of_bits hdst_bits]

theorem decode_packLoadImmediate (T : Tables) (dst : Reg) {imm : Nat} (h : imm ≤ maxImm) :
    decode T (packLoadImmediate T dst imm) = .known (.ldi dst imm) := by
  have hw := packLoadImmediate_toNat T dst h
  have hdst := (regCode T dst).isLt
  have himm : imm ≤ 4194303 := h
  generalize packLoadImmediate T dst imm = w at hw ⊢
  have hop : w.toNat / 2 ^ 26 = (opcodeCode T .LDI).toNat := by omega
  have hdst_bits : bits w 25 22 = (regCode T dst).toNat := by unfold bits; omega
  have himm_bits : bits w 21 0 = imm := by unfold bits; omega
  rw [decode_of_name (opcodeName_of_opcode_bits hop), unpack, unpackLoadImmediate, unpackReg_of_bits hdst_bits,
    himm_bits]

/-- JMP and JMPM: both modes read back the same fields, and the mode bits pick the member (R46, R47). -/
theorem decode_packJumpIndirect (T : Tables) (cond : Cond) (reg : Reg) {mem : Nat} (h : mem ≤ 1) :
    decode T (packJumpIndirect T cond reg mem) = .known (if mem = 0 then .jmp cond reg else .jmpm cond reg) := by
  have hw := packJumpIndirect_toNat T cond reg h
  have hreg := (regCode T reg).isLt
  have hcond := (condCode T cond).isLt
  generalize packJumpIndirect T cond reg mem = w at hw ⊢
  have hop : w.toNat / 2 ^ 26 = (opcodeCode T .JMP).toNat := by omega
  have hreg_bits : bits w 25 22 = (regCode T reg).toNat := by unfold bits; omega
  have hcond_bits : bits w 21 20 = (condCode T cond).toNat := by unfold bits; omega
  have hfamily_bit : bits w 1 1 = 0 := by unfold bits; omega
  have hmember_bit : bits w 0 0 = mem := by unfold bits; omega
  rw [decode_of_name (opcodeName_of_opcode_bits hop), unpack, unpackJump, if_pos hfamily_bit, hmember_bit,
    unpackJumpIndirect, unpackJumpIndirect, unpackReg_of_bits hreg_bits, unpackCond_of_bits hcond_bits]

/-- JMPA and JMPR: both modes read back the same fields, and the mode bits pick the member (R46, R47). -/
theorem decode_packJumpDirect (T : Tables) (cond : Cond) {imm rel : Nat} (h : imm ≤ maxImm) (hr : rel ≤ 1) :
    decode T (packJumpDirect T cond imm rel) = .known (if rel = 0 then .jmpa cond imm else .jmpr cond imm) := by
  have hw := packJumpDirect_toNat T cond h hr
  have hcond := (condCode T cond).isLt
  have himm : imm ≤ 4194303 := h
  generalize packJumpDirect T cond imm rel = w at hw ⊢
  have hop : w.toNat / 2 ^ 26 = (opcodeCode T .JMP).toNat := by omega
  have hcond_bits : bits w 25 24 = (condCode T cond).toNat := by unfold bits; omega
  have himm_bits : bits w 23 2 = imm := by unfold bits; omega
  have hfamily_bit : bits w 1 1 ≠ 0 := by unfold bits; omega
  have hmember_bit : bits w 0 0 = rel := by unfold bits; omega
  rw [decode_of_name (opcodeName_of_opcode_bits hop), unpack, unpackJump, if_neg hfamily_bit, hmember_bit,
    unpackJumpDirect, unpackJumpDirect, unpackCond_of_bits hcond_bits, himm_bits]

/-- R95: decoding undoes packing, family by family. -/
theorem decode_pack (T : Tables) {i : Instr} (h : i.WellFormed) : decode T (pack T i) = .known i := by
  cases i with
  | nop => exact decode_pack_nop T
  | load src dst flag | store src dst flag | mov src dst flag | add src dst flag | sub src dst flag
  | cmp src dst flag | and src dst flag | or src dst flag | xor src dst flag | not src dst flag | inc src dst flag
  | dec src dst flag => exact decode_packRegisterALU rfl src dst (of_decide_eq_true h)
  | portIn src dst | portOut src dst => exact decode_packPortIO rfl src dst
  | ldi dst imm => exact decode_packLoadImmediate T dst (of_decide_eq_true h)
  | jmp cond reg | jmpm cond reg => exact decode_packJumpIndirect T cond reg (by decide)
  | jmpa cond imm | jmpr cond imm => exact decode_packJumpDirect T cond (of_decide_eq_true h) (by decide)

/-- A line that parses to a well-formed instruction encodes to a word that decodes to it (R60, R95). -/
theorem exists_encode_decode (T : Tables) {ts : List Token} {i : Instr} (hparse : parse ts = .ok i)
    (hwf : i.WellFormed) : ∃ w, encode T ts = .ok w ∧ decode T w = .known i :=
  ⟨pack T i, encode_eq_ok.mpr ⟨i, hparse, rfl⟩, decode_pack T hwf⟩

/-- The word of a line that parses to a well-formed instruction renders as that instruction's text (R92, R95). -/
theorem exists_encode_render (T : Tables) {ts : List Token} {i : Instr} (hparse : parse ts = .ok i)
    (hwf : i.WellFormed) : ∃ w, encode T ts = .ok w ∧ render (decode T w) = render (.known i) :=
  (exists_encode_decode T hparse hwf).imp fun _ ⟨henc, hdec⟩ => ⟨henc, congrArg render hdec⟩

/-- Settles O15: `decode_pack` for every instruction, and its three lines by what they parse to. -/
theorem decodeOfPackIsIdentity : Obligations.DecodeOfPackIsIdentity := by
  unfold Obligations.DecodeOfPackIsIdentity
  refine ⟨fun T i => decode_pack T, fun T => ⟨?_, ?_, ?_⟩⟩
  · exact exists_encode_decode T (by decide) (by decide)
  · exact exists_encode_render T (i := .add .A .B 0) (by decide) (by decide)
  · exact exists_encode_render T (i := .jmpr .C 10) (by decide) (by decide)

end Sys2Proof

/-! ## Failures of the encoder: the operand count (R154), and how a failure is delivered (R163, R164) -/

namespace Sys2Proof

open Machine Spec

/-! ### What a step does with the call at the ports -/

/-- DEC's output for a word that decodes to `Known(i)`: the opcode field is the code of `i`'s opcode name (R18, R85). -/
theorem decOutput_of_known {T : Tables} {w : Word} {i : Instr} (h : decode T w = .known i) :
    decOutput T w = ⟨.known i, opcodeCode T i.opName, render (.known i)⟩ := by
  obtain ⟨op, hop, rfl⟩ := name_of_decode_known h
  rw [unpack_opName, opcodeCode_of_opcodeName hop, decOutput, h]

/-- DEC's output for an `Unknown`: its raw opcode is the opcode field (R18, R88). -/
theorem decOutput_of_unknown {T : Tables} {w : Word} {c : BitVec 6} (h : decode T w = .unknown c) :
    decOutput T w = ⟨.unknown c, c, render (.unknown c)⟩ := by
  have hfield : opcodeField w = c := by
    cases hop : opcodeName T (opcodeField w) with
    | none => simpa [decode_of_none hop] using h
    | some op => simp [decode_of_name hop] at h
  rw [decOutput, h, hfield]

/-- The step's two arms for a word both answer DEC's output (R18). -/
theorem step_word {s : State} {w : Word} {rest : List Call} (h : s.calls = .word w :: rest) :
    step s = .next (s.take.answer (.decoded (decOutput s.tables w))) := by
  simp only [step, h]
  cases hdec : decode s.tables w with
  | known i =>
    rw [decOutput_of_known hdec]
    exact exec_eq_answerKnown i s.take
  | unknown c =>
    rw [decOutput_of_unknown hdec, ← State.answerUnknown_eq]

/-- A step takes the first call and adds its answer, a function of the call and the tables; nothing else changes
(R13, R30). -/
theorem step_of_calls_cons {s : State} {c : Call} {rest : List Call} (h : s.calls = c :: rest) :
    step s = .next { s with calls := rest, answers := s.answers ++ [answerOf s.tables c] } := by
  have hstep : step s = .next (s.take.answer (answerOf s.tables c)) := by
    cases c with
    | line text | tokens ts => simp [step, h, State.answerTokens_eq, answerOf]
    | word w => exact step_word h
  simp [hstep, State.take, State.answer, h]

/-- Settles O52: the step adds the call's own answer, and of a failure the ports carry no word. -/
theorem failureIsTheCallsValue : Obligations.FailureIsTheCallsValue := by
  unfold Obligations.FailureIsTheCallsValue
  intro s ts rest e hcalls hfail
  have hstep := step_of_calls_cons hcalls
  rw [answerOf, hfail] at hstep
  rw [hfail]
  exact ⟨hstep, rfl, rfl⟩

/-- Settles O53: both runs answer the second call by `answerOf` of the same tables, so the failed call leaves no
trace. -/
theorem failureLeavesNoTrace : Obligations.FailureLeavesNoTrace := by
  unfold Obligations.FailureLeavesNoTrace
  intro s c d rest e hcalls hfail
  have hfirst := step_of_calls_cons hcalls
  rw [hfail] at hfirst
  exact ⟨answerOf s.tables d, _, hfirst, rfl, step_of_calls_cons rfl, step_of_calls_cons rfl⟩

/-! ### Which operand counts each family's reader refuses -/

/-- A sequence of operand readers fails with the first failure. -/
theorem bind_eq_error {α β : Type} {x : Except EncodeError α} {f : α → Except EncodeError β} {e : EncodeError} :
    (x >>= f) = .error e ↔ x = .error e ∨ ∃ a, x = .ok a ∧ f a = .error e := by
  cases x <;> simp [bind, Except.bind]

/-- Building the instruction from the last operand adds no failure. -/
@[simp] theorem map_eq_error {α β : Type} {x : Except EncodeError α} {f : α → β} {e : EncodeError} :
    f <$> x = .error e ↔ x = .error e := by
  cases x <;> simp [Functor.map, Except.map]

/-- A register operand fails in one way only (R67). -/
theorem regOperand_eq_error {t : Token} {e : EncodeError} (h : regOperand t = .error e) : e = .UnknownRegister := by
  unfold regOperand at h
  split at h <;> cases h
  rfl

/-- A condition operand fails in one way only (R68). -/
theorem condOperand_eq_error {t : Token} {e : EncodeError} (h : condOperand t = .error e) : e = .UnknownCondition := by
  unfold condOperand at h
  split at h <;> cases h
  rfl

/-- A numeric operand fails in two ways only (R70). -/
theorem numOperand_eq_error {width : Nat} {t : Token} {e : EncodeError} (h : numOperand width t = .error e) :
    e = .InvalidImmediate ∨ e = .ImmediateOutOfRange := by
  unfold numOperand at h
  split at h
  · cases h
    exact .inl rfl
  · split at h <;> cases h
    exact .inr rfl

@[simp] theorem regOperand_ne_countMismatch (t : Token) : regOperand t ≠ .error .OperandCountMismatch :=
  fun h => nomatch regOperand_eq_error h

@[simp] theorem condOperand_ne_countMismatch (t : Token) : condOperand t ≠ .error .OperandCountMismatch :=
  fun h => nomatch condOperand_eq_error h

@[simp] theorem numOperand_ne_countMismatch (width : Nat) (t : Token) :
    numOperand width t ≠ .error .OperandCountMismatch :=
  fun h => by simpa using numOperand_eq_error h

theorem parseNoOperand_countMismatch_iff (i : Instr) (ops : List Token) :
    parseNoOperand i ops = .error .OperandCountMismatch ↔ ops.length ∉ operandCounts .NoOperand := by
  cases ops <;> simp [parseNoOperand, operandCounts]

theorem parseRegisterALU_countMismatch_iff (mk : Reg → Reg → Nat → Instr) (ops : List Token) :
    parseRegisterALU mk ops = .error .OperandCountMismatch ↔ ops.length ∉ operandCounts .RegisterALU := by
  match ops with
  | [_, _] | [_, _, _] => simp [parseRegisterALU, operandCounts, bind_eq_error]
  | [] | [_] | _ :: _ :: _ :: _ :: _ => simp [parseRegisterALU, operandCounts]

theorem parsePortIO_countMismatch_iff (mk : Reg → Reg → Instr) (ops : List Token) :
    parsePortIO mk ops = .error .OperandCountMismatch ↔ ops.length ∉ operandCounts .PortIO := by
  match ops with
  | [_, _] => simp [parsePortIO, operandCounts, bind_eq_error]
  | [] | [_] | _ :: _ :: _ :: _ => simp [parsePortIO, operandCounts]

theorem parseLoadImmediate_countMismatch_iff (mk : Reg → Nat → Instr) (ops : List Token) :
    parseLoadImmediate mk ops = .error .OperandCountMismatch ↔ ops.length ∉ operandCounts .LoadImmediate := by
  match ops with
  | [_, _] => simp [parseLoadImmediate, operandCounts, bind_eq_error]
  | [] | [_] | _ :: _ :: _ :: _ => simp [parseLoadImmediate, operandCounts]

theorem parseJumpIndirect_countMismatch_iff (mk : Cond → Reg → Instr) (ops : List Token) :
    parseJumpIndirect mk ops = .error .OperandCountMismatch ↔ ops.length ∉ operandCounts .JumpIndirect := by
  match ops with
  | [_, _] => simp [parseJumpIndirect, operandCounts, bind_eq_error]
  | [] | [_] | _ :: _ :: _ :: _ => simp [parseJumpIndirect, operandCounts]

theorem parseJumpDirect_countMismatch_iff (mk : Cond → Nat → Instr) (ops : List Token) :
    parseJumpDirect mk ops = .error .OperandCountMismatch ↔ ops.length ∉ operandCounts .JumpDirect := by
  match ops with
  | [_, _] => simp [parseJumpDirect, operandCounts, bind_eq_error]
  | [] | [_] | _ :: _ :: _ :: _ => simp [parseJumpDirect, operandCounts]

/-- A mnemonic's operand reader refuses exactly the counts that its family does not have (R64). -/
theorem parseOperands_countMismatch_iff (m : Mnemonic) (ops : List Token) :
    parseOperands m ops = .error .OperandCountMismatch ↔ ops.length ∉ operandCounts m.family := by
  cases m with
  | NOP => exact parseNoOperand_countMismatch_iff _ ops
  | LOAD | STORE | MOV | ADD | SUB | CMP | AND | OR | XOR | NOT | INC | DEC =>
    exact parseRegisterALU_countMismatch_iff _ ops
  | IN | OUT => exact parsePortIO_countMismatch_iff _ ops
  | LDI => exact parseLoadImmediate_countMismatch_iff _ ops
  | JMP | JMPM => exact parseJumpIndirect_countMismatch_iff _ ops
  | JMPA | JMPR => exact parseJumpDirect_countMismatch_iff _ ops

/-- A line whose token 0 spells a mnemonic is read by that mnemonic's operand reader (R63). -/
theorem parse_of_isLine {ts : List Token} {m : Mnemonic} {ops : List Token} (h : IsLine ts m ops) :
    parse ts = parseOperands m ops := by
  obtain ⟨t, rfl, ht⟩ := h
  rw [token_of_mnemonicOfToken ht, parse_cons_token]

/-- Past step 1 of R60: a line that fails otherwise than by `UnknownMnemonic` has a mnemonic as token 0. -/
theorem exists_isLine_of_parse_error {ts : List Token} {e : EncodeError} (h : parse ts = .error e)
    (he : e ≠ .UnknownMnemonic) : ∃ m ops, IsLine ts m ops := by
  cases ts with
  | nil => cases h; exact absurd rfl he
  | cons t ops =>
    cases hm : mnemonicOfToken t with
    | none =>
      rw [parse, hm] at h
      cases h
      exact absurd rfl he
    | some m => exact ⟨m, ops, t, rfl, hm⟩

/-- R154 for the whole encoder: step 2 fails exactly on a known mnemonic with a count its family does not have. -/
theorem encode_countMismatch_iff {T : Tables} {ts : List Token} :
    encode T ts = .error .OperandCountMismatch ↔
      ∃ m ops, IsLine ts m ops ∧ ops.length ∉ operandCounts m.family := by
  rw [encode_eq_error]
  constructor
  · intro h
    obtain ⟨m, ops, hline⟩ := exists_isLine_of_parse_error h nofun
    rw [parse_of_isLine hline] at h
    exact ⟨m, ops, hline, (parseOperands_countMismatch_iff m ops).mp h⟩
  · rintro ⟨m, ops, hline, hcount⟩
    rw [parse_of_isLine hline]
    exact (parseOperands_countMismatch_iff m ops).mpr hcount

theorem encode_token_countMismatch (T : Tables) (m : Mnemonic) {ops : List Token}
    (h : ops.length ∉ operandCounts m.family) : encode T (m.token :: ops) = .error .OperandCountMismatch :=
  encode_countMismatch_iff.mpr ⟨m, ops, ⟨m.token, rfl, mnemonicOfToken_token m⟩, h⟩

/-- No family takes exactly one operand (R64). -/
theorem one_notMem_operandCounts (fam : Family) : 1 ∉ operandCounts fam := by
  cases fam <;> decide

/-- Settles O23: `encode_countMismatch_iff`; one operand is a wrong count for every mnemonic, and each example has
a wrong count. -/
theorem operandCountMismatchExactly : Obligations.OperandCountMismatchExactly := by
  unfold Obligations.OperandCountMismatchExactly
  intro T
  refine ⟨fun ts => encode_countMismatch_iff, fun m => ⟨[chars "A"], ?_⟩, ?_, ?_, ?_, ?_, ?_, ?_, ?_⟩
  · exact encode_token_countMismatch T m (one_notMem_operandCounts m.family)
  · exact encode_token_countMismatch T .MOV (by decide)
  · exact encode_token_countMismatch T .NOP (by decide)
  · exact encode_token_countMismatch T .ADD (by decide)
  · exact encode_token_countMismatch T .IN (by decide)
  · exact encode_token_countMismatch T .LDI (by decide)
  · exact encode_token_countMismatch T .JMP (by decide)
  · exact encode_token_countMismatch T .JMPA (by decide)

end Sys2Proof

/-! ## What a run of the machine answers (R13, R29, R30, R165) -/

namespace Sys2Proof

open Machine Spec

/-- An idle step goes on and changes nothing (log 1). -/
theorem step_of_calls_nil {s : State} (h : s.calls = []) : step s = .next s := by
  simp only [step, h]

/-- Settles O41: the step's first arm. -/
theorem idleStepChangesNothing : Obligations.IdleStepChangesNothing := by
  unfold Obligations.IdleStepChangesNothing
  exact fun s => step_of_calls_nil

/-- Settles O51: a step with a call answers it, and an idle step stays. -/
theorem everyStepGoesOn : Obligations.EveryStepGoesOn := by
  unfold Obligations.EveryStepGoesOn
  intro s
  cases hcalls : s.calls with
  | nil => exact ⟨s, step_of_calls_nil hcalls, hcalls, by simp⟩
  | cons c rest => exact ⟨_, step_of_calls_cons hcalls, rfl, by simp⟩

/-- Settles O49: `step_of_calls_cons`, and DEC's raw opcode is `w[31:26]`. -/
theorem stepIsTheCombinationalAnswer : Obligations.StepIsTheCombinationalAnswer := by
  unfold Obligations.StepIsTheCombinationalAnswer
  refine fun s c rest hcalls => ⟨step_of_calls_cons hcalls, ?_⟩
  rintro w rfl
  rw [extractLsb_eq_opcodeField, answerOf, decOutput]

/-- Settles O54: both states answer by `answerOf` of the same tables and call. -/
theorem answersAreIndependent : Obligations.AnswersAreIndependent := by
  unfold Obligations.AnswersAreIndependent
  intro s₁ s₂ c r₁ r₂ htables hcalls₁ hcalls₂
  refine ⟨answerOf s₁.tables c, step_of_calls_cons hcalls₁, ?_⟩
  rw [htables]
  exact step_of_calls_cons hcalls₂

/-- Settles O40: a line's answer is ENC's result, by `answerOf`. -/
theorem stepAnswersLines : Obligations.StepAnswersLines := by
  unfold Obligations.StepAnswersLines
  exact fun s rest => ⟨fun ts => step_of_calls_cons, fun text => step_of_calls_cons⟩

/-- Settles O39: an unassigned opcode decodes to `Unknown`, whose DEC output is its raw opcode and text. -/
theorem stepAnswersUnassignedOpcode : Obligations.StepAnswersUnassignedOpcode := by
  unfold Obligations.StepAnswersUnassignedOpcode
  intro s w rest hcalls hnone
  rw [extractLsb_eq_opcodeField] at hnone ⊢
  rw [step_of_calls_cons hcalls, answerOf, decOutput_of_unknown (decode_of_none hnone)]
  rfl

theorem take_of_calls_cons {s : State} {c : Call} {rest : List Call} (h : s.calls = c :: rest) :
    s.take = { s with calls := rest } := by
  simp [State.take, h]

/-- The step's arm for a word that decodes to `Known(i)` runs the meaning of `i` (R86). -/
theorem step_eq_exec {s : State} {w : Word} {rest : List Call} {i : Instr} (hcalls : s.calls = .word w :: rest)
    (hdec : decode s.tables w = .known i) : step s = exec i { s with calls := rest } := by
  rw [← take_of_calls_cons hcalls]
  simp only [step, hcalls, hdec]

/-- Settles O38: `step_eq_exec`, twice; `withFetchWord` makes the word the first call. -/
theorem stepRunsTheDecodedInstruction : Obligations.StepRunsTheDecodedInstruction := by
  unfold Obligations.StepRunsTheDecodedInstruction
  refine ⟨fun s w rest i => step_eq_exec, fun s nbits w i hdec => ?_⟩
  exact step_eq_exec (s := s.withFetchWord nbits w) (rest := s.calls) rfl hdec

/-- A run answers the first calls in order and leaves the others waiting: each step moves one answer over from those
still due to those given. -/
theorem core_run_of_le_length (n : Nat) (s : State) (h : n ≤ s.calls.length) :
    Sys2Proof.core.run n s =
      .next { s with calls := s.calls.drop n, answers := s.answers ++ (s.calls.take n).map (answerOf s.tables) } := by
  induction n generalizing s with
  | zero => simp [core_run_zero]
  | succ n ih =>
    cases hcalls : s.calls with
    | nil => simp [hcalls] at h
    | cons c rest =>
      have hrest : n ≤ rest.length := by simpa [hcalls] using h
      rw [core_run_succ n _ _ (step_of_calls_cons hcalls), ih _ hrest]
      simp

theorem core_run_length (s : State) :
    Sys2Proof.core.run s.calls.length s =
      .next { s with calls := [], answers := s.answers ++ s.calls.map (answerOf s.tables) } := by
  rw [core_run_of_le_length _ s le_rfl, List.drop_length, List.take_length]

/-- Settles O55: `core_run_of_le_length`; for lines the answers due are the batch encoding. -/
theorem batchIsAnsweredInOrder : Obligations.BatchIsAnsweredInOrder := by
  unfold Obligations.BatchIsAnsweredInOrder
  refine ⟨core_run_length, fun s lines hcalls => ?_, fun s n => core_run_of_le_length n s⟩
  have hrun := core_run_length s
  have hbatch : (lines.map .line).map (answerOf s.tables) = (encodeBatch s.tables lines).map .encoded := by
    simp [encodeBatch, answerOf]
  rw [hcalls, List.length_map, hbatch] at hrun
  exact hrun

/-- One step goes on and keeps the tables (R17). -/
theorem exists_step_tables (s : State) : ∃ s', step s = .next s' ∧ s'.tables = s.tables := by
  cases hcalls : s.calls with
  | nil => exact ⟨s, step_of_calls_nil hcalls, rfl⟩
  | cons c rest => exact ⟨_, step_of_calls_cons hcalls, rfl⟩

/-- Settles O56: by induction on the number of steps, each of which keeps the tables. -/
theorem tablesNeverChange : Obligations.TablesNeverChange := by
  unfold Obligations.TablesNeverChange
  intro n
  induction n with
  | zero => exact fun s => ⟨s, core_run_zero s, rfl⟩
  | succ n ih =>
    intro s
    obtain ⟨s₁, hstep, htables₁⟩ := exists_step_tables s
    obtain ⟨s', hrun, htables⟩ := ih s₁
    exact ⟨s', (core_run_succ n s s₁ hstep).trans hrun, htables.trans htables₁⟩

/-- Settles O48: every meaning gives one answer, and an answer changes nothing else. -/
theorem instructionFrame : Obligations.InstructionFrame := by
  unfold Obligations.InstructionFrame
  intro i s s' h
  rw [exec_eq_answerKnown, State.answerKnown_eq] at h
  cases h
  exact ⟨rfl, rfl, _, rfl⟩

/-- Settles O59: the reset state's fields. -/
theorem resetState : Obligations.ResetState := by
  unfold Obligations.ResetState
  rw [State.reset_tables]
  exact ⟨rfl, rfl, rfl, by decide, State.reset_calls, State.reset_answers⟩

/-- `dec_known` says whether the opcode has a name (R18, R87). -/
theorem decKnown_decOutput (T : Tables) (w : Word) :
    decKnown (decOutput T w) = (opcodeName T (opcodeField w)).isSome := by
  cases hop : opcodeName T (opcodeField w) with
  | none => simp [decKnown, decOutput, decode_of_none hop]
  | some op => simp [decKnown, decOutput, decode_of_name hop]

/-- Settles O50: each port is meaningful in one of the two cases of the sum it views. -/
theorem portsAreMeaningfulWhenSaid : Obligations.PortsAreMeaningfulWhenSaid := by
  unfold Obligations.PortsAreMeaningfulWhenSaid
  refine ⟨fun T w => ?_, fun T ts => ?_⟩
  · rw [extractLsb_eq_opcodeField]
    refine ⟨?_, ?_, rfl⟩
    · rw [decKnown_decOutput, Option.ne_none_iff_isSome]
    · unfold decInstr decKnown
      cases (decOutput T w).line <;> rfl
  · cases encode T ts <;> exact ⟨rfl, rfl⟩

end Sys2Proof

/-! ## Fields and unused bits: what DEC reads and `pack` writes (R41, R51, R52, R73, R90, R96) -/

namespace Sys2Proof

open Machine

/-! ### Bits of a field -/

/-- A bit of a field, read off the word. -/
theorem getLsbD_eq_testBit_bits (w : Word) {hi lo k : Nat} (hlo : lo ≤ k) (hhi : k ≤ hi) :
    w.getLsbD k = (bits w hi lo).testBit (k - lo) := by
  have hlt : k - lo < hi - lo + 1 := by omega
  rw [bits, Nat.testBit_mod_two_pow, decide_eq_true hlt, Bool.true_and, Nat.testBit_div_two_pow,
    Nat.sub_add_cancel hlo, BitVec.getLsbD]

/-- Two words have the same field when they have the same bits there. -/
theorem bits_congr {w w' : Word} {hi lo : Nat} (h : ∀ k, lo ≤ k → k < lo + (hi - lo + 1) → w'.getLsbD k = w.getLsbD k) :
    bits w' hi lo = bits w hi lo := by
  apply Nat.eq_of_testBit_eq
  intro k
  rw [bits, bits, Nat.testBit_mod_two_pow, Nat.testBit_mod_two_pow, Nat.testBit_div_two_pow, Nat.testBit_div_two_pow]
  by_cases hk : k < hi - lo + 1
  · rw [decide_eq_true hk, Bool.true_and, Bool.true_and]
    exact h (k + lo) (by omega) (by omega)
  · rw [decide_eq_false hk, Bool.false_and, Bool.false_and]

/-- A field is zero exactly when its bits are. -/
theorem bits_eq_zero_iff (w : Word) {hi lo : Nat} (hle : lo ≤ hi) :
    bits w hi lo = 0 ↔ ∀ k, lo ≤ k → k ≤ hi → w.getLsbD k = false := by
  constructor
  · intro h k hlo hhi
    rw [getLsbD_eq_testBit_bits w hlo hhi, h, Nat.zero_testBit]
  · intro h
    have hzero : bits w hi lo = bits 0#32 hi lo :=
      bits_congr fun k hlo hhi => by rw [h k hlo (by omega), BitVec.getLsbD_zero]
    rw [hzero, bits, BitVec.toNat_zero, Nat.zero_div, Nat.zero_mod]

theorem bits_lt (w : Word) (hi lo : Nat) : bits w hi lo < 2 ^ (hi - lo + 1) := Nat.mod_lt _ (Nat.two_pow_pos _)

/-- A field that is zero as a number is zero as `extractLsb`. -/
theorem extractLsb_eq_zero_of_bits {w : Word} {hi lo : Nat} (h : bits w hi lo = 0) : w.extractLsb hi lo = 0 :=
  BitVec.eq_of_toNat_eq (by rw [extractLsb_toNat_eq_bits, h]; rfl)

/-! ### The layouts (R41) -/

/-- Bit `k` lies in the field. -/
def Field.holds (f : Field) (k : Nat) : Bool := f.lo ≤ k && k ≤ f.hi

/-- Each of the 32 bits lies in exactly one field or is unused, in every family. -/
theorem layout_partition (fam : Family) : ∀ k < 32,
    (fam.fields.filter fun f => f.holds k).length + (if fam.unusedBit k then 1 else 0) = 1 := by
  cases fam <;> decide

/-- Settles O6: `layout_partition`, and the flag and mode fields of each layout. -/
theorem layoutsPartitionTheWord : Obligations.LayoutsPartitionTheWord := by
  unfold Obligations.LayoutsPartitionTheWord
  exact ⟨layout_partition, fun fam => by cases fam <;> decide, fun fam => by cases fam <;> decide⟩

/-- A bit that is not unused lies in a field. -/
theorem exists_field_of_used {fam : Family} {k : Nat} (hk : k < 32) (h : fam.unusedBit k = false) :
    ∃ f ∈ fam.fields, f.lo ≤ k ∧ k ≤ f.hi := by
  have hone := layout_partition fam k hk
  rw [h, if_neg Bool.false_ne_true, Nat.add_zero] at hone
  obtain ⟨f, hf⟩ := List.exists_mem_of_length_pos (by omega : 0 < (fam.fields.filter fun f => f.holds k).length)
  simp only [List.mem_filter, Field.holds, Bool.and_eq_true, decide_eq_true_eq] at hf
  exact ⟨f, hf⟩

theorem unusedBit_iff {fam : Family} {k : Nat} :
    fam.unusedBit k = true ↔ ∃ hi lo, fam.unused = some (hi, lo) ∧ lo ≤ k ∧ k ≤ hi := by
  unfold Family.unusedBit
  cases fam.unused with
  | none => simp
  | some r => obtain ⟨hi, lo⟩ := r; simp

/-- The unused bits of a family are a range of bits below the opcode, and the mode bits of JumpIndirect below it. -/
theorem unused_range {fam : Family} {hi lo : Nat} (h : fam.unused = some (hi, lo)) :
    lo ≤ hi ∧ hi ≤ 25 ∧ (fam = .JumpIndirect → 2 ≤ lo) := by
  cases fam with
  | NoOperand | RegisterALU | PortIO | JumpIndirect => cases h; decide
  | LoadImmediate | JumpDirect => cases h

/-- A canonical word is one that decodes, with every unused bit zero (R52). -/
theorem canonical_iff_of_known {T : Tables} {w : Word} {fam : Family} (hfam : familyOfWord T w = some fam) :
    canonical T w = true ↔ ∀ k, fam.unusedBit k = true → w.getLsbD k = false := by
  simp only [canonical, hfam, unusedBit_iff]
  cases hun : fam.unused with
  | none => simp
  | some r =>
    obtain ⟨hi, lo⟩ := r
    rw [beq_iff_eq, bits_eq_zero_iff w (unused_range hun).1]
    simp

/-- A canonical word decodes to a known instruction (R52). -/
theorem exists_known_of_canonical {T : Tables} {w : Word} (h : canonical T w = true) : ∃ i, decode T w = .known i := by
  cases hop : opcodeName T (opcodeField w) with
  | none => simp [canonical, familyOfWord, hop] at h
  | some op => exact ⟨_, decode_of_name hop⟩

/-! ### What DEC reads (R90) -/

/-- The family of a word that decodes is its instruction's (R35, R37). -/
theorem familyOfWord_of_known {T : Tables} {w : Word} {i : Instr} (h : decode T w = .known i) :
    familyOfWord T w = some i.family := by
  obtain ⟨op, hop, rfl⟩ := name_of_decode_known h
  rw [familyOfWord_of_name hop, unpack_family]

/-- The code of the register read from a four-bit field is the field. -/
theorem regCode_unpackReg (T : Tables) (w : Word) {hi lo : Nat} (h : hi - lo + 1 = 4) :
    (regCode T (unpackReg T w hi lo)).toNat = bits w hi lo := by
  have hlt := bits_lt w hi lo
  rw [h] at hlt
  rw [unpackReg, regCode_regName, BitVec.toNat_ofNat, Nat.mod_eq_of_lt hlt]

/-- The code of the condition read from a two-bit field is the field. -/
theorem condCode_unpackCond (T : Tables) (w : Word) {hi lo : Nat} (h : hi - lo + 1 = 2) :
    (condCode T (unpackCond T w hi lo)).toNat = bits w hi lo := by
  have hlt := bits_lt w hi lo
  rw [h] at hlt
  rw [unpackCond, condCode_condName, BitVec.toNat_ofNat, Nat.mod_eq_of_lt hlt]

/-- A number read from a 22-bit field is a 22-bit immediate (R48). -/
theorem immOk_bits (w : Word) {hi lo : Nat} (h : hi - lo + 1 = 22) : immOk (bits w hi lo) = true := by
  have hlt := bits_lt w hi lo
  rw [h] at hlt
  exact decide_eq_true (Nat.le_of_lt_succ hlt)

/-- Bit 17 is a flag (R49). -/
theorem flagOk_bits (w : Word) : flagOk (bits w 17 17) = true :=
  decide_eq_true (Nat.le_of_lt_succ (Nat.mod_lt _ (by decide)))

/-- The instruction has in every field of its family's layout the word's bits (R41, R90). -/
def Instr.FieldsIn (T : Tables) (i : Instr) (w : Word) : Prop :=
  ∀ f ∈ i.family.fields, i.fieldValue T f.name = some (bits w f.hi f.lo)

/-- The four unpackings of a JMP word, each with the mode it stands for (R46, R47). -/
theorem unpackJump_cases (T : Tables) (w : Word) :
    (unpackJump T w = unpackJumpIndirect T .jmp w ∧ bits w 1 0 = 0) ∨
    (unpackJump T w = unpackJumpIndirect T .jmpm w ∧ bits w 1 0 = 1) ∨
    (unpackJump T w = unpackJumpDirect T .jmpa w ∧ bits w 1 0 = 2) ∨
    (unpackJump T w = unpackJumpDirect T .jmpr w ∧ bits w 1 0 = 3) := by
  have hhigh : bits w 1 1 = bits w 1 0 / 2 := by unfold bits; omega
  have hlow : bits w 0 0 = bits w 1 0 % 2 := by unfold bits; omega
  have hlt : bits w 1 0 < 4 := Nat.mod_lt _ (by decide)
  unfold unpackJump
  rw [hhigh, hlow]
  interval_cases bits w 1 0 <;> simp

theorem fieldsIn_of_family {T : Tables} {i : Instr} {w : Word} {fam : Family} (hfam : i.family = fam)
    (h : ∀ f ∈ fam.fields, i.fieldValue T f.name = some (bits w f.hi f.lo)) : i.FieldsIn T w := by
  rw [Instr.FieldsIn, hfam]
  exact h

/-- Every unpacking of an assigned opcode is well-formed and carries the word's fields (R36, R90). -/
theorem unpack_wf_fieldsIn {T : Tables} {w : Word} {op : OpcodeName} (hop : opcodeName T (opcodeField w) = some op) :
    (unpack T op w).WellFormed ∧ (unpack T op w).FieldsIn T w := by
  have hopcode : (opcodeCode T op).toNat = bits w 31 26 := by
    rw [opcodeCode_of_opcodeName hop, opcodeField, BitVec.toNat_ofNat, Nat.mod_eq_of_lt (bits_lt w 31 26)]
  have hreg : (regCode T (unpackReg T w 25 22)).toNat = bits w 25 22 := regCode_unpackReg T w rfl
  have hdst : (regCode T (unpackReg T w 21 18)).toNat = bits w 21 18 := regCode_unpackReg T w rfl
  cases op with
  | NOP =>
    refine ⟨rfl, fieldsIn_of_family (fam := .NoOperand) rfl ?_⟩
    simp only [Family.fields, List.forall_mem_cons]
    exact ⟨congrArg some hopcode, nofun⟩
  | LOAD | STORE | MOV | ADD | SUB | CMP | AND | OR | XOR | NOT | INC | DEC =>
    refine ⟨flagOk_bits w, fieldsIn_of_family (fam := .RegisterALU) rfl ?_⟩
    simp only [Family.fields, List.forall_mem_cons]
    exact ⟨congrArg some hopcode, congrArg some hreg, congrArg some hdst, rfl, nofun⟩
  | IN | OUT =>
    refine ⟨rfl, fieldsIn_of_family (fam := .PortIO) rfl ?_⟩
    simp only [Family.fields, List.forall_mem_cons]
    exact ⟨congrArg some hopcode, congrArg some hreg, congrArg some hdst, nofun⟩
  | LDI =>
    refine ⟨immOk_bits w rfl, fieldsIn_of_family (fam := .LoadImmediate) rfl ?_⟩
    simp only [Family.fields, List.forall_mem_cons]
    exact ⟨congrArg some hopcode, congrArg some hreg, rfl, nofun⟩
  | JMP =>
    have hcond_indirect : (condCode T (unpackCond T w 21 20)).toNat = bits w 21 20 := condCode_unpackCond T w rfl
    have hcond_direct : (condCode T (unpackCond T w 25 24)).toNat = bits w 25 24 := condCode_unpackCond T w rfl
    rw [show unpack T .JMP w = unpackJump T w from rfl]
    rcases unpackJump_cases T w with ⟨hjump, hmode⟩ | ⟨hjump, hmode⟩ | ⟨hjump, hmode⟩ | ⟨hjump, hmode⟩ <;> rw [hjump]
    case inl | inr.inl =>
      refine ⟨rfl, fieldsIn_of_family (fam := .JumpIndirect) rfl ?_⟩
      simp only [Family.fields, List.forall_mem_cons]
      exact ⟨congrArg some hopcode, congrArg some hreg, congrArg some hcond_indirect, congrArg some hmode.symm, nofun⟩
    case inr.inr.inl | inr.inr.inr =>
      refine ⟨immOk_bits w rfl, fieldsIn_of_family (fam := .JumpDirect) rfl ?_⟩
      simp only [Family.fields, List.forall_mem_cons]
      exact ⟨congrArg some hopcode, congrArg some hcond_direct, rfl, congrArg some hmode.symm, nofun⟩

theorem wf_of_decode_known {T : Tables} {w : Word} {i : Instr} (h : decode T w = .known i) : i.WellFormed := by
  obtain ⟨op, hop, rfl⟩ := name_of_decode_known h
  exact (unpack_wf_fieldsIn hop).1

theorem fieldsIn_of_decode_known {T : Tables} {w : Word} {i : Instr} (h : decode T w = .known i) :
    i.FieldsIn T w := by
  obtain ⟨op, hop, rfl⟩ := name_of_decode_known h
  exact (unpack_wf_fieldsIn hop).2

/-- A field of the word, in the form the statements write it. -/
theorem bits_eq_shiftRight (w : Word) (hi lo : Nat) : bits w hi lo = (w.toNat >>> lo) % 2 ^ (hi - lo + 1) := by
  rw [bits, Nat.shiftRight_eq_div_pow]

/-- Settles O18: each unpacking reads the fields of its layout, and a field's width bounds its number. -/
theorem decodedFieldsAreTheWordsBits : Obligations.DecodedFieldsAreTheWordsBits := by
  unfold Obligations.DecodedFieldsAreTheWordsBits
  intro T w i hdec
  simp only [← bits_eq_shiftRight]
  exact ⟨wf_of_decode_known hdec, familyOfWord_of_known hdec, fieldsIn_of_decode_known hdec⟩

/-! ### What `pack` writes (R73) -/

/-- `pack` is injective on well-formed instructions, because `decode` undoes it. -/
theorem pack_injective {T : Tables} {i j : Instr} (hi : i.WellFormed) (hj : j.WellFormed)
    (h : pack T i = pack T j) : i = j := by
  have hdec := decode_pack T hi
  rw [h, decode_pack T hj] at hdec
  injection hdec with hij
  exact hij.symm

/-- Settles O19: the packed word decodes to the instruction, so its fields are the instruction's values. -/
theorem packPlacesFieldsInjectively : Obligations.PackPlacesFieldsInjectively := by
  unfold Obligations.PackPlacesFieldsInjectively
  intro T i hwf
  simp only [← bits_eq_shiftRight]
  exact ⟨fieldsIn_of_decode_known (decode_pack T hwf), fun j hj => pack_injective hwf hj⟩

theorem bits_packRegisterALU_unused (T : Tables) (op : OpcodeName) (src dst : Reg) {flag : Nat} (h : flag ≤ 1) :
    bits (packRegisterALU T op src dst flag) 16 0 = 0 := by
  rw [bits, packRegisterALU_toNat T op src dst h]
  omega

theorem bits_packPortIO_unused (T : Tables) (op : OpcodeName) (src dst : Reg) :
    bits (packPortIO T op src dst) 17 0 = 0 := by
  rw [bits, packPortIO_toNat]
  omega

theorem bits_packJumpIndirect_unused (T : Tables) (cond : Cond) (reg : Reg) {mem : Nat} (h : mem ≤ 1) :
    bits (packJumpIndirect T cond reg mem) 19 2 = 0 := by
  rw [bits, packJumpIndirect_toNat T cond reg h]
  omega

/-- `pack` writes 0 in every unused bit (R51). -/
theorem bits_pack_unused (T : Tables) {i : Instr} (hwf : i.WellFormed) {hi lo : Nat}
    (hun : i.family.unused = some (hi, lo)) : bits (pack T i) hi lo = 0 := by
  cases i with
  | nop => cases hun; rw [pack_nop]; rfl
  | load src dst flag | store src dst flag | mov src dst flag | add src dst flag | sub src dst flag
  | cmp src dst flag | and src dst flag | or src dst flag | xor src dst flag | not src dst flag | inc src dst flag
  | dec src dst flag => cases hun; exact bits_packRegisterALU_unused T _ src dst (of_decide_eq_true hwf)
  | portIn src dst | portOut src dst => cases hun; exact bits_packPortIO_unused T _ src dst
  | jmp cond reg | jmpm cond reg => cases hun; exact bits_packJumpIndirect_unused T cond reg (by decide)
  | ldi dst imm | jmpa cond imm | jmpr cond imm => cases hun

theorem getLsbD_pack_unused (T : Tables) {i : Instr} (hwf : i.WellFormed) {k : Nat}
    (hk : i.family.unusedBit k = true) : (pack T i).getLsbD k = false := by
  obtain ⟨hi, lo, hun, hlo, hhi⟩ := unusedBit_iff.mp hk
  rw [getLsbD_eq_testBit_bits _ hlo hhi, bits_pack_unused T hwf hun, Nat.zero_testBit]

/-- The packing of a well-formed instruction is a canonical word (R52, R76). -/
theorem canonical_pack (T : Tables) {i : Instr} (hwf : i.WellFormed) : canonical T (pack T i) = true :=
  (canonical_iff_of_known (familyOfWord_of_known (decode_pack T hwf))).mpr fun _ hk => getLsbD_pack_unused T hwf hk

/-! ### `pack` after `decode` (R96) -/

/-- Word and packing share every field, by `FieldsIn` of both, so they share every used bit; the unused are cleared. -/
theorem getLsbD_pack_of_decode {T : Tables} {w : Word} {i : Instr} (hdec : decode T w = .known i) {k : Nat}
    (hk : k < 32) : (pack T i).getLsbD k = (w.getLsbD k && !i.family.unusedBit k) := by
  have hwf := wf_of_decode_known hdec
  cases hun : i.family.unusedBit k with
  | true => rw [getLsbD_pack_unused T hwf hun, Bool.not_true, Bool.and_false]
  | false =>
    obtain ⟨f, hf, hlo, hhi⟩ := exists_field_of_used hk hun
    have hword := fieldsIn_of_decode_known hdec f hf
    rw [fieldsIn_of_decode_known (decode_pack T hwf) f hf] at hword
    injection hword with hbits
    rw [getLsbD_eq_testBit_bits _ hlo hhi, hbits, ← getLsbD_eq_testBit_bits _ hlo hhi, Bool.not_false, Bool.and_true]

/-- The packing of what a canonical word decodes to is the word (R96). -/
theorem pack_of_canonical {T : Tables} {w : Word} {i : Instr} (hdec : decode T w = .known i)
    (hcan : canonical T w = true) : pack T i = w := by
  have hzero := (canonical_iff_of_known (familyOfWord_of_known hdec)).mp hcan
  apply BitVec.eq_of_getLsbD_eq
  intro k hk
  rw [getLsbD_pack_of_decode hdec hk]
  cases hun : i.family.unusedBit k with
  | true => rw [hzero k hun, Bool.false_and]
  | false => rw [Bool.not_false, Bool.and_true]

/-- Settles O16: bit by bit, and a packing is canonical and decodes to its instruction. -/
theorem packOfDecodeClearsUnusedBits : Obligations.PackOfDecodeClearsUnusedBits := by
  unfold Obligations.PackOfDecodeClearsUnusedBits
  intro T w i hdec
  have hwf := wf_of_decode_known hdec
  refine ⟨fun k => getLsbD_pack_of_decode hdec, ⟨fun h => h ▸ canonical_pack T hwf, pack_of_canonical hdec⟩, ?_⟩
  rw [decode_pack T hwf, hdec]

/-- Words that differ in unused bits of the family alone decode alike: their packings are the same word (R51). -/
theorem decode_congr_of_unused {T : Tables} {w w' : Word} {i : Instr} (hdec : decode T w = .known i)
    (hfam : familyOfWord T w' = some i.family)
    (hbits : ∀ k, i.family.unusedBit k = false → w'.getLsbD k = w.getLsbD k) : decode T w' = .known i := by
  obtain ⟨op, hop⟩ : ∃ op, opcodeName T (opcodeField w') = some op := by
    rw [familyOfWord, Option.map_eq_some_iff] at hfam
    exact hfam.imp fun _ h => h.1
  have hdec' := decode_of_name hop
  generalize unpack T op w' = j at hdec'
  have hji : j.family = i.family := by
    rw [familyOfWord_of_known hdec'] at hfam
    injection hfam
  have hpack : pack T j = pack T i := by
    apply BitVec.eq_of_getLsbD_eq
    intro k hk
    rw [getLsbD_pack_of_decode hdec hk, getLsbD_pack_of_decode hdec' hk, hji]
    cases hun : i.family.unusedBit k with
    | true => rw [Bool.not_true, Bool.and_false, Bool.and_false]
    | false => rw [hbits k hun]
  rw [hdec', pack_injective (wf_of_decode_known hdec') (wf_of_decode_known hdec) hpack]

/-- A flipped bit outside a field leaves the field as it is. -/
theorem bits_xor_twoPow (w : Word) {hi lo k : Nat} (h : k < lo ∨ lo + (hi - lo) < k) :
    bits (w ^^^ BitVec.twoPow 32 k) hi lo = bits w hi lo := by
  refine bits_congr fun l hlo hhi => ?_
  have hne : k ≠ l := by omega
  simp [BitVec.getLsbD_xor, BitVec.getLsbD_twoPow, hne]

/-- Flipping an unused bit leaves the family of the word as it is (R51). -/
theorem familyOfWord_xor_twoPow {T : Tables} {w : Word} {i : Instr} (hdec : decode T w = .known i) {k : Nat}
    (hk : i.family.unusedBit k = true) : familyOfWord T (w ^^^ BitVec.twoPow 32 k) = some i.family := by
  obtain ⟨hi, lo, hun, hlo, hhi⟩ := unusedBit_iff.mp hk
  obtain ⟨-, hlt, hmode⟩ := unused_range hun
  have hfield : opcodeField (w ^^^ BitVec.twoPow 32 k) = opcodeField w := by
    rw [opcodeField, bits_xor_twoPow w (.inl (by omega)), opcodeField]
  rw [← familyOfWord_of_known hdec]
  by_cases hjmp : opcodeName T (opcodeField w) = some .JMP
  · have hfam : i.family = familyOf .JMP (bits w 1 1) := by
      have hfam := familyOfWord_of_known hdec
      rw [familyOfWord_of_name hjmp] at hfam
      injection hfam with hfam
      exact hfam.symm
    have hindirect : i.family = .JumpIndirect := by
      rw [hfam, familyOf] at hun ⊢
      split at hun
      · rw [if_pos ‹_›]
      · cases hun
    have h2 := hmode hindirect
    rw [familyOfWord, familyOfWord, hfield, bits_xor_twoPow w (.inr (by omega))]
  · exact familyOfWord_congr hjmp hfield

/-- Settles O17: `bits_pack_unused`, and a flipped unused bit is read by nothing. -/
theorem unusedBitsIgnoredAndZero : Obligations.UnusedBitsIgnoredAndZero := by
  unfold Obligations.UnusedBitsIgnoredAndZero
  refine fun T i k hk hun => ⟨fun hwf => getLsbD_pack_unused T hwf hun, fun w hdec => ?_⟩
  refine decode_congr_of_unused hdec (familyOfWord_xor_twoPow hdec hun) fun l hl => ?_
  have hne : k ≠ l := by rintro rfl; rw [hun] at hl; cases hl
  simp [BitVec.getLsbD_xor, BitVec.getLsbD_twoPow, hne]

/-- Settles O14: by evaluation, one word at a time. -/
theorem wordsDecodeAsWritten : Obligations.WordsDecodeAsWritten := by
  unfold Obligations.WordsDecodeAsWritten Spec.Decodes
  decide

end Sys2Proof

/-! ## The packing equations of each family (R42, R43, R44, R46) -/

namespace Sys2Proof

open Machine Spec

/-- What the model says of a RegisterALU member: its mnemonic, opcode name and constructor stand together everywhere. -/
structure IsRegisterALU (m : Mnemonic) (op : OpcodeName) (mk : Reg → Reg → Nat → Instr) : Prop where
  mnemonic : ∀ src dst flag, (mk src dst flag).mnemonic = m
  tokens : ∀ src dst flag, operandTokens (mk src dst flag) = registerALUTokens src dst flag
  packs : ∀ T src dst flag, pack T (mk src dst flag) = packRegisterALU T op src dst flag
  unpacks : ∀ T, unpack T op = unpackRegisterALU T mk
  parses : parseOperands m = parseRegisterALU mk

/-- What the model says of a PortIO member. -/
structure IsPortIO (m : Mnemonic) (op : OpcodeName) (mk : Reg → Reg → Instr) : Prop where
  mnemonic : ∀ src dst, (mk src dst).mnemonic = m
  tokens : ∀ src dst, operandTokens (mk src dst) = portIOTokens src dst
  packs : ∀ T src dst, pack T (mk src dst) = packPortIO T op src dst
  unpacks : ∀ T, unpack T op = unpackPortIO T mk
  parses : parseOperands m = parsePortIO mk

theorem isRegisterALU_of_mem : ∀ r ∈ aluMembers, IsRegisterALU r.1 r.2.1 r.2.2 := by
  simp only [aluMembers, List.forall_mem_cons]
  refine ⟨?_, ?_, ?_, ?_, ?_, ?_, ?_, ?_, ?_, ?_, ?_, ?_, nofun⟩ <;> constructor <;> intros <;> rfl

theorem isPortIO_of_mem : ∀ r ∈ portMembers, IsPortIO r.1 r.2.1 r.2.2 := by
  simp only [portMembers, List.forall_mem_cons]
  refine ⟨?_, ?_, nofun⟩ <;> constructor <;> intros <;> rfl

/-- A union of shifted fields below 2^32 is the word's number itself: nothing is lost above bit 31. -/
theorem ofNat_toNat_of_lt {n : Nat} (h : n < 2 ^ 32) : (BitVec.ofNat 32 n).toNat = n := by
  rw [BitVec.toNat_ofNat, Nat.mod_eq_of_lt h]

theorem opcodeCode_shiftLeft_lt (T : Tables) (op : OpcodeName) : (opcodeCode T op).toNat <<< 26 < 2 ^ 32 :=
  Nat.shiftLeft_lt (opcodeCode T op).isLt

theorem regCode_shiftLeft_lt (T : Tables) (r : Reg) {k : Nat} (hk : k + 4 ≤ 32) :
    (regCode T r).toNat <<< k < 2 ^ 32 :=
  calc (regCode T r).toNat <<< k < 2 ^ (4 + k) := Nat.shiftLeft_lt (regCode T r).isLt
    _ ≤ 2 ^ 32 := Nat.pow_le_pow_right (by decide) (by omega)

theorem condCode_shiftLeft_lt (T : Tables) (c : Cond) {k : Nat} (hk : k + 2 ≤ 32) :
    (condCode T c).toNat <<< k < 2 ^ 32 :=
  calc (condCode T c).toNat <<< k < 2 ^ (2 + k) := Nat.shiftLeft_lt (condCode T c).isLt
    _ ≤ 2 ^ 32 := Nat.pow_le_pow_right (by decide) (by omega)

theorem packRegisterALU_toNat_eq_or (T : Tables) (op : OpcodeName) (src dst : Reg) {flag : Nat} (h : flag ≤ 1) :
    (packRegisterALU T op src dst flag).toNat =
      (opcodeCode T op).toNat <<< 26 ||| (regCode T src).toNat <<< 22 ||| (regCode T dst).toNat <<< 18 |||
        flag <<< 17 := by
  have hflag : flag <<< 17 < 2 ^ 32 := by rw [Nat.shiftLeft_eq]; omega
  exact ofNat_toNat_of_lt (Nat.or_lt_two_pow (Nat.or_lt_two_pow (Nat.or_lt_two_pow (opcodeCode_shiftLeft_lt T op)
    (regCode_shiftLeft_lt T src (by decide))) (regCode_shiftLeft_lt T dst (by decide))) hflag)

theorem packPortIO_toNat_eq_or (T : Tables) (op : OpcodeName) (src dst : Reg) :
    (packPortIO T op src dst).toNat =
      (opcodeCode T op).toNat <<< 26 ||| (regCode T src).toNat <<< 22 ||| (regCode T dst).toNat <<< 18 :=
  ofNat_toNat_of_lt (Nat.or_lt_two_pow (Nat.or_lt_two_pow (opcodeCode_shiftLeft_lt T op)
    (regCode_shiftLeft_lt T src (by decide))) (regCode_shiftLeft_lt T dst (by decide)))

theorem packJumpIndirect_toNat_eq_or (T : Tables) (cond : Cond) (reg : Reg) {mem : Nat} (h : mem ≤ 1) :
    (packJumpIndirect T cond reg mem).toNat =
      (opcodeCode T .JMP).toNat <<< 26 ||| (regCode T reg).toNat <<< 22 ||| (condCode T cond).toNat <<< 20 ||| mem :=
  ofNat_toNat_of_lt (Nat.or_lt_two_pow (Nat.or_lt_two_pow (Nat.or_lt_two_pow (opcodeCode_shiftLeft_lt T .JMP)
    (regCode_shiftLeft_lt T reg (by decide))) (condCode_shiftLeft_lt T cond (by decide))) (by omega))

theorem packJumpDirect_toNat_eq_or (T : Tables) (cond : Cond) {imm rel : Nat} (h : imm ≤ maxImm) (hr : rel ≤ 1) :
    (packJumpDirect T cond imm rel).toNat =
      (opcodeCode T .JMP).toNat <<< 26 ||| (condCode T cond).toNat <<< 24 ||| imm <<< 2 ||| 0b10 ||| rel := by
  have himm : imm <<< 2 < 2 ^ 32 := by
    have himm : imm ≤ 4194303 := h
    rw [Nat.shiftLeft_eq]
    omega
  exact ofNat_toNat_of_lt (Nat.or_lt_two_pow (Nat.or_lt_two_pow (Nat.or_lt_two_pow (Nat.or_lt_two_pow
    (opcodeCode_shiftLeft_lt T .JMP) (condCode_shiftLeft_lt T cond (by decide))) himm) (by decide)) (by omega))

/-- Settles O7: NOP's code is 0, and its unpacking reads no field. -/
theorem noOperandPackUnpack : Obligations.NoOperandPackUnpack := by
  unfold Obligations.NoOperandPackUnpack
  intro T
  refine ⟨ofNat_toNat_of_lt (opcodeCode_shiftLeft_lt T .NOP), pack_nop T, fun w hop => ?_⟩
  rw [extractLsb_eq_opcodeField] at hop
  exact decode_of_name hop

/-- Settles O8: the family's packing and unpacking, of which each member is one. -/
theorem registerALUPackUnpack : Obligations.RegisterALUPackUnpack := by
  unfold Obligations.RegisterALUPackUnpack
  intro T r hr
  have hmember := isRegisterALU_of_mem r hr
  refine ⟨fun src dst flag hflag => ?_, fun w hop => ?_⟩
  · rw [hmember.packs]
    exact ⟨packRegisterALU_toNat_eq_or T _ src dst hflag,
      extractLsb_eq_zero_of_bits (bits_packRegisterALU_unused T _ src dst hflag)⟩
  · rw [extractLsb_eq_opcodeField] at hop
    rw [decode_of_name hop, hmember.unpacks, unpackRegisterALU, unpackReg_25_22, unpackReg_21_18,
      extractLsb_toNat_eq_bits]

/-- Settles O9: the family's packing and unpacking, of which each member is one. -/
theorem portIOPackUnpack : Obligations.PortIOPackUnpack := by
  unfold Obligations.PortIOPackUnpack
  intro T r hr
  have hmember := isPortIO_of_mem r hr
  refine ⟨fun src dst => ?_, fun w hop => ?_⟩
  · rw [hmember.packs]
    exact ⟨packPortIO_toNat_eq_or T _ src dst, extractLsb_eq_zero_of_bits (bits_packPortIO_unused T _ src dst)⟩
  · rw [extractLsb_eq_opcodeField] at hop
    rw [decode_of_name hop, hmember.unpacks, unpackPortIO, unpackReg_25_22, unpackReg_21_18]

/-- A JumpIndirect packing's number, unused bits and mode (R46). -/
theorem packJumpIndirect_spec (T : Tables) (cond : Cond) (reg : Reg) {mem : Nat} (h : mem ≤ 1) :
    (packJumpIndirect T cond reg mem).toNat =
      (opcodeCode T .JMP).toNat <<< 26 ||| (regCode T reg).toNat <<< 22 ||| (condCode T cond).toNat <<< 20 ||| mem ∧
    (packJumpIndirect T cond reg mem).extractLsb 19 2 = 0 ∧
    ((packJumpIndirect T cond reg mem).extractLsb 1 0).toNat = mem := by
  refine ⟨packJumpIndirect_toNat_eq_or T cond reg h,
    extractLsb_eq_zero_of_bits (bits_packJumpIndirect_unused T cond reg h), ?_⟩
  rw [extractLsb_toNat_eq_bits, bits, packJumpIndirect_toNat T cond reg h]
  omega

/-- A JumpDirect packing's number and mode (R46). -/
theorem packJumpDirect_spec (T : Tables) (cond : Cond) {imm rel : Nat} (h : imm ≤ maxImm) (hr : rel ≤ 1) :
    (packJumpDirect T cond imm rel).toNat =
      (opcodeCode T .JMP).toNat <<< 26 ||| (condCode T cond).toNat <<< 24 ||| imm <<< 2 ||| 0b10 ||| rel ∧
    ((packJumpDirect T cond imm rel).extractLsb 1 0).toNat = 2 + rel := by
  refine ⟨packJumpDirect_toNat_eq_or T cond h hr, ?_⟩
  rw [extractLsb_toNat_eq_bits, bits, packJumpDirect_toNat T cond h hr]
  omega

/-- `w[1:0]` is the number of the mode. -/
theorem toNat_mod_four_of_mode {w : Word} {m : BitVec 2} (h : w.extractLsb 1 0 = m) : w.toNat % 4 = m.toNat := by
  have hmode := extractLsb_toNat_eq_bits w 1 0
  rw [h] at hmode
  rw [hmode, bits]
  omega

/-- Settles O11: both packings by their fields, and the unpacking by `unpackJump_by_mode`. -/
theorem jumpPackUnpack : Obligations.JumpPackUnpack := by
  unfold Obligations.JumpPackUnpack
  intro T
  refine ⟨?_, ?_, fun w hop => ?_⟩
  · simp only [List.forall_mem_cons]
    exact ⟨fun cond reg => packJumpIndirect_spec T cond reg (by decide),
      fun cond reg => packJumpIndirect_spec T cond reg (by decide), nofun⟩
  · simp only [List.forall_mem_cons]
    exact ⟨fun cond imm himm => packJumpDirect_spec T cond himm (by decide),
      fun cond imm himm => packJumpDirect_spec T cond himm (by decide), nofun⟩
  · rw [extractLsb_eq_opcodeField] at hop
    rw [decode_of_name hop, show unpack T .JMP w = unpackJump T w from rfl, unpackJump_by_mode]
    refine ⟨fun hmode => ?_, fun hmode => ?_, fun hmode => ?_, fun hmode => ?_⟩ <;>
      rw [toNat_mod_four_of_mode hmode] <;> rfl

end Sys2Proof

/-! ## The names and their codes (R20, R22, R39, R40) -/

namespace Sys2Proof

open Spec

/-- `reg_code` knows a token exactly when it spells a register. -/
theorem regCodeOfToken_eq_some {T : Tables} {t : Token} {c : BitVec 4} :
    regCodeOfToken T t = some c ↔ t = (regName T c).token := by
  rw [regCodeOfToken, Option.map_eq_some_iff]
  constructor
  · rintro ⟨r, hr, rfl⟩
    rw [regName_regCode, token_of_regOfToken hr]
  · rintro rfl
    exact ⟨_, regOfToken_token _, regCode_regName T c⟩

theorem condCodeOfToken_eq_some {T : Tables} {t : Token} {c : BitVec 2} :
    condCodeOfToken T t = some c ↔ t = (condName T c).token := by
  rw [condCodeOfToken, Option.map_eq_some_iff]
  constructor
  · rintro ⟨r, hr, rfl⟩
    rw [condName_condCode, token_of_condOfToken hr]
  · rintro rfl
    exact ⟨_, condOfToken_token _, condCode_condName T c⟩

theorem regOfToken_isSome_iff {t : Token} : (regOfToken t).isSome = true ↔ ∃ r : Reg, r.token = t := by
  rw [Option.isSome_iff_exists]
  exact exists_congr fun r => ⟨fun h => (token_of_regOfToken h).symm, fun h => h ▸ regOfToken_token r⟩

theorem condOfToken_isSome_iff {t : Token} : (condOfToken t).isSome = true ↔ ∃ c : Cond, c.token = t := by
  rw [Option.isSome_iff_exists]
  exact exists_congr fun c => ⟨fun h => (token_of_condOfToken h).symm, fun h => h ▸ condOfToken_token c⟩

/-- A character from `A` to `P` is one of sixteen. -/
theorem exists_reg_of_between {c : Char} (hA : 'A' ≤ c) (hP : c ≤ 'P') : ∃ r : Reg, r.token = [c] := by
  have hlo : 65 ≤ c.toNat := hA
  have hhi : c.toNat ≤ 80 := hP
  have hall : ∀ n ≤ 80, 65 ≤ n → (regOfToken [Char.ofNat n]).isSome = true := by decide
  have hc := hall c.toNat hhi hlo
  rw [Char.ofNat_toNat] at hc
  exact regOfToken_isSome_iff.mp hc

/-- The spelling of a register is one character, its letter. -/
theorem Reg.exists_token_eq (r : Reg) : ∃ c : Char, r.token = [c] ∧ 'A' ≤ c ∧ c ≤ 'P' := by
  cases r <;> exact ⟨_, rfl, by decide⟩

/-- Under the default REG_MAP a register's code is the place of its letter (D2). -/
theorem regCode_default (r : Reg) {c : Char} (h : r.token = [c]) : (regCode Tables.default r).toNat = c.toNat - 65 := by
  cases r <;> cases h <;> decide

/-- Settles O2: a register is spelled by its letter, and REG_MAP is read back from either side. -/
theorem registerNamesExact : Obligations.RegisterNamesExact := by
  unfold Obligations.RegisterNamesExact
  refine ⟨fun T t => ?_, fun T c => regCodeOfToken_eq_some.mpr rfl,
    fun T t c h => (regCodeOfToken_eq_some.mp h).symm, fun c k h => ?_⟩
  · rw [regCodeOfToken, Option.isSome_map, regOfToken_isSome_iff]
    constructor
    · rintro ⟨r, rfl⟩
      exact r.exists_token_eq
    · rintro ⟨c, rfl, hA, hP⟩
      exact exists_reg_of_between hA hP
  · have htoken := regCodeOfToken_eq_some.mp h
    rw [← regCode_default _ htoken.symm, regCode_regName]

/-- Settles O3: the four spellings, and COND_MAP is read back from either side. -/
theorem conditionNamesExact : Obligations.ConditionNamesExact := by
  unfold Obligations.ConditionNamesExact
  refine ⟨fun T t => ?_, fun T c => condCodeOfToken_eq_some.mpr rfl,
    fun T t c h => (condCodeOfToken_eq_some.mp h).symm, by decide⟩
  rw [condCodeOfToken, Option.isSome_map, condOfToken_isSome_iff,
    show [chars "AL", chars "Z", chars "N", chars "C"] = Cond.all.map Cond.token from rfl, List.mem_map]
  exact ⟨fun ⟨c, hc⟩ => ⟨c, c.mem_all, hc⟩, fun ⟨c, _, hc⟩ => ⟨c, hc⟩⟩

/-- R39's rows are the mnemonics with what the catalog says of each. -/
theorem mnemonicRows_eq : mnemonicRows = Mnemonic.all.map fun m => (m.token, m.opName, m.family, m.mode) := rfl

/-- Settles O4: a token is looked up exactly when it is a mnemonic's spelling. -/
theorem mnemonicLookupIsTheTable : Obligations.MnemonicLookupIsTheTable := by
  unfold Obligations.MnemonicLookupIsTheTable
  refine ⟨fun t op fam mode => ?_, by decide, rfl⟩
  rw [mnemonicRows_eq, List.mem_map, mnemonicLookup, Option.map_eq_some_iff]
  constructor
  · rintro ⟨m, hm, hrow⟩
    cases hrow
    exact ⟨m, m.mem_all, by rw [token_of_mnemonicOfToken hm]⟩
  · rintro ⟨m, -, hrow⟩
    cases hrow
    exact ⟨m, mnemonicOfToken_token m, rfl⟩

/-- Settles O5: the default table by evaluation, and the constraints on every table. -/
theorem opcodeNumbers : Obligations.OpcodeNumbers := by
  unfold Obligations.OpcodeNumbers
  refine ⟨fun op => by cases op <;> decide, fun T c => opcodeName_eq_none_iff, fun T => ?_⟩
  exact ⟨opcodeCode_of_opcodeName T.opcodes_nop, opcodeCode_of_opcodeName T.opcodes_add⟩

end Sys2Proof

/-! ## Numerals (R69, R92) -/

namespace Sys2Proof

open Machine Spec

/-- Reading digits succeeds exactly when each character is one, with the value in the base (R69). -/
theorem readDigits_eq_some {base : Nat} {digit : Char → Option Nat} {isDigit : Char → Prop} {value : Char → Nat}
    (hdigit : ∀ c d, digit c = some d ↔ isDigit c ∧ d = value c) {ds : List Char} {acc v : Nat} :
    readDigits base digit acc ds = some v ↔
      (∀ c ∈ ds, isDigit c) ∧ v = ds.foldl (fun a c => base * a + value c) acc := by
  induction ds generalizing acc with
  | nil => simp [readDigits, eq_comm]
  | cons c cs ih =>
    rw [List.forall_mem_cons, List.foldl_cons, readDigits]
    cases hc : digit c with
    | none =>
      have hnot : ¬ isDigit c := fun h => by simp [(hdigit c (value c)).mpr ⟨h, rfl⟩] at hc
      simp [hnot]
    | some d =>
      obtain ⟨hisDigit, rfl⟩ := (hdigit c d).mp hc
      rw [Nat.mul_comm base acc]
      simp only [ih, hisDigit, true_and]

theorem readNumeral_eq_some {base : Nat} {digit : Char → Option Nat} {isDigit : Char → Prop} {value : Char → Nat}
    (hdigit : ∀ c d, digit c = some d ↔ isDigit c ∧ d = value c) {ds : List Char} {v : Nat} :
    readNumeral base digit ds = some v ↔
      ds ≠ [] ∧ (∀ c ∈ ds, isDigit c) ∧ v = ds.foldl (fun a c => base * a + value c) 0 := by
  rw [readNumeral]
  by_cases hds : ds = []
  · simp [hds]
  · rw [if_neg hds, readDigits_eq_some hdigit, and_iff_right hds]

theorem decDigit_eq_some (c : Char) (d : Nat) :
    decDigit c = some d ↔ c.isDigit = true ∧ d = c.toNat - '0'.toNat := by
  have hrange : c.isDigit = true ↔ '0' ≤ c ∧ c ≤ '9' := by
    simp [Char.isDigit, Char.le_def]
  rw [hrange, decDigit]
  by_cases h : '0' ≤ c ∧ c ≤ '9'
  · rw [if_pos h, and_iff_right h, Option.some_inj, eq_comm]
  · simp [h]

/-- Past ASCII there is no hexadecimal digit, and no letter to lower. -/
theorem hexDigit_of_ge {c : Char} (h : 128 ≤ c.toNat) :
    hexDigit c = none ∧ c.toLower ∉ chars "0123456789abcdef" := by
  have hgt : ∀ d : Char, d.toNat < 128 → ¬ c ≤ d := fun d hd hle => by
    have hle : c.toNat ≤ d.toNat := hle
    omega
  constructor
  · rw [hexDigit, if_neg fun hc => hgt '9' (by decide) hc.2, if_neg fun hc => hgt 'f' (by decide) hc.2,
      if_neg fun hc => hgt 'F' (by decide) hc.2]
  · have hlower : c.toLower = c := by
      rw [Char.toLower, dif_neg fun hc => hgt 'Z' (by decide) hc.2]
    have hascii : ∀ d ∈ chars "0123456789abcdef", d.toNat < 128 := by simp [chars]
    intro hmem
    have := hascii _ hmem
    rw [hlower] at this
    omega

/-- The hexadecimal digits of either case, with their place in `0123456789abcdef` (R69). -/
theorem hexDigit_eq (c : Char) :
    hexDigit c = if c.toLower ∈ chars "0123456789abcdef" then some (hexValue c) else none := by
  by_cases h : c.toNat < 128
  · have hall : (List.range 128).all (fun n => hexDigit (Char.ofNat n) =
        if (Char.ofNat n).toLower ∈ chars "0123456789abcdef" then some (hexValue (Char.ofNat n)) else none) = true := by
      decide
    have hc := of_decide_eq_true (List.all_eq_true.mp hall c.toNat (List.mem_range.mpr h))
    rwa [Char.ofNat_toNat] at hc
  · obtain ⟨hnone, hmem⟩ := hexDigit_of_ge (Nat.le_of_not_lt h)
    rw [hnone, if_neg hmem]

theorem hexDigit_eq_some (c : Char) (d : Nat) :
    hexDigit c = some d ↔ c.toLower ∈ chars "0123456789abcdef" ∧ d = hexValue c := by
  rw [hexDigit_eq]
  by_cases h : c.toLower ∈ chars "0123456789abcdef"
  · rw [if_pos h, and_iff_right h, Option.some_inj, eq_comm]
  · simp [h]

/-- A token begins with `0x`. -/
theorem take_two_eq_iff {t : Token} : t.take 2 = chars "0x" ↔ ∃ ds, t = '0' :: 'x' :: ds := by
  match t with
  | [] | [_] => simp [chars]
  | a :: b :: ds => simp [chars]

/-- R69's hexadecimal form. -/
theorem parseNum_hex {ds : List Char} {v : Nat} :
    parseNum ('0' :: 'x' :: ds) = some v ↔
      ds ≠ [] ∧ (∀ c ∈ ds, c.toLower ∈ chars "0123456789abcdef") ∧
        v = ds.foldl (fun a c => 16 * a + hexValue c) 0 := by
  rw [parseNum, if_pos (take_two_eq_iff.mpr ⟨ds, rfl⟩)]
  exact readNumeral_eq_some hexDigit_eq_some

/-- R69's decimal form. -/
theorem parseNum_dec {t : Token} (h : ¬ ∃ ds, t = '0' :: 'x' :: ds) {v : Nat} :
    parseNum t = some v ↔ t ≠ [] ∧ (∀ c ∈ t, c.isDigit = true) ∧ v = Nat.ofDigitChars 10 t 0 := by
  rw [parseNum, if_neg (mt take_two_eq_iff.mp h), Nat.ofDigitChars_eq_foldl]
  exact readNumeral_eq_some decDigit_eq_some

/-- Settles O29: the two forms of the grammar, told apart by `0x`. -/
theorem numeralsAreTheGrammar : Obligations.NumeralsAreTheGrammar := by
  unfold Obligations.NumeralsAreTheGrammar
  intro t v
  by_cases hhex : ∃ ds, t = '0' :: 'x' :: ds
  · obtain ⟨ds, rfl⟩ := hhex
    rw [parseNum_hex]
    constructor
    · exact fun h => .inl ⟨ds, rfl, h⟩
    · rintro (⟨ds', hds, h⟩ | ⟨hnot, -⟩)
      · cases hds
        exact h
      · exact absurd ⟨ds, rfl⟩ hnot
  · rw [parseNum_dec hhex]
    constructor
    · exact fun h => .inr ⟨hhex, h⟩
    · rintro (⟨ds, hds, -⟩ | ⟨-, h⟩)
      · exact absurd ⟨ds, hds⟩ hhex
      · exact h

theorem decimal_ne_nil (v : Nat) : decimal v ≠ [] := Nat.toDigits_ne_nil

theorem isDigit_of_mem_decimal {v : Nat} {c : Char} (h : c ∈ decimal v) : c.isDigit = true :=
  Nat.isDigit_of_mem_toDigits (by decide) (by decide) h

/-- A decimal does not begin with `0x`, since `x` is no digit. -/
theorem decimal_not_hex (v : Nat) : ¬ ∃ ds, decimal v = '0' :: 'x' :: ds := by
  rintro ⟨ds, h⟩
  have hx : 'x' ∈ decimal v := by simp [h]
  exact absurd (isDigit_of_mem_decimal hx) (by decide)

/-- The decimal printed reads back (R69, R92). -/
@[simp] theorem parseNum_decimal (v : Nat) : parseNum (decimal v) = some v :=
  (parseNum_dec (decimal_not_hex v)).mpr
    ⟨decimal_ne_nil v, fun _ => isDigit_of_mem_decimal, (Nat.ofDigitChars_toDigits (by decide) (by decide)).symm⟩

/-- No leading zero: the first digit of `v` is that of `v / 10`, down to a positive number of one digit. -/
theorem decimal_head_ne_zero (v : Nat) (h : 0 < v) : (decimal v).head? ≠ some '0' := by
  induction v using Nat.strongRecOn with
  | ind v ih =>
    unfold decimal at ih ⊢
    by_cases hlt : v < 10
    · have hdigits : ∀ n < 10, 0 < n → [Nat.digitChar n].head? ≠ some '0' := by decide
      rw [Nat.toDigits_of_lt_base hlt]
      exact hdigits v hlt h
    · rw [Nat.toDigits_of_base_le (by decide) (Nat.le_of_not_lt hlt),
        List.head?_append_of_ne_nil _ Nat.toDigits_ne_nil]
      exact ih (v / 10) (by omega) (by omega)

/-- Settles O37: the library's digits, none of which is `x`. -/
theorem decimalReadsBack : Obligations.DecimalReadsBack := by
  unfold Obligations.DecimalReadsBack
  exact fun v => ⟨fun c => isDigit_of_mem_decimal, decimal_head_ne_zero v, by decide, parseNum_decimal v⟩

end Sys2Proof

/-! ## The encoder's failures, step by step (R60, R153, R155 to R158, R160) -/

namespace Sys2Proof

open Machine Spec

/-! ### Steps 2 to 5 -/

/-- Steps 2 to 5 of R60's pseudocode, for the operands of a known mnemonic (`firstDefect_of_isLine`). -/
def operandDefect (fam : Family) (ops : List Token) : Option EncodeError :=
  if !arityOk fam ops.length then some .OperandCountMismatch
  else if (roles fam ops).regs.any fun r => (regOfToken r).isNone then some .UnknownRegister
  else if (roles fam ops).conds.any fun c => (condOfToken c).isNone then some .UnknownCondition
  else numDefect (roles fam ops).nums

theorem firstDefect_of_isLine {ts : List Token} {m : Mnemonic} {ops : List Token} (h : IsLine ts m ops) :
    firstDefect ts = operandDefect m.family ops := by
  obtain ⟨t, rfl, ht⟩ := h
  simp only [firstDefect, mnemonicLookup, ht, Option.map_some, operandDefect]

/-- How a reader fails, if it does. -/
def defect {α : Type} : Except EncodeError α → Option EncodeError
  | .error e => some e
  | .ok _ => none

theorem defect_eq_some {α : Type} {x : Except EncodeError α} {e : EncodeError} : defect x = some e ↔ x = .error e := by
  cases x <;> simp [defect]

/-- A reader before others, whose defect does not depend on what it read, goes first. -/
theorem defect_bind {α β : Type} {x : Except EncodeError α} {f : α → Except EncodeError β} {d : Option EncodeError}
    (h : ∀ a, defect (f a) = d) : defect (x >>= f) = (defect x).or d := by
  cases x with
  | error e => rfl
  | ok a => exact h a

theorem defect_regOperand (t : Token) :
    defect (regOperand t) = if (regOfToken t).isNone then some .UnknownRegister else none := by
  unfold regOperand
  cases regOfToken t <;> rfl

theorem defect_condOperand (t : Token) :
    defect (condOperand t) = if (condOfToken t).isNone then some .UnknownCondition else none := by
  unfold condOperand
  cases condOfToken t <;> rfl

theorem defect_numOperand (width : Nat) (t : Token) : defect (numOperand width t) = numDefect [(t, width)] := by
  unfold numOperand numDefect
  cases parseNum t with
  | none => rfl
  | some v =>
    show defect (if v > 2 ^ width - 1 then _ else _) = if v > 2 ^ width - 1 then _ else _
    split <;> rfl

/-- A step that fails in one way only, before others. -/
theorem ite_some_or {p : Prop} [Decidable p] (e : EncodeError) (d : Option EncodeError) :
    (if p then some e else none).or d = if p then some e else d := by
  split <;> rfl

/-- The operand readers of a RegisterALU line fail in the order of steps 2 to 5 (R160). -/
theorem defect_parseRegisterALU (mk : Reg → Reg → Nat → Instr) (ops : List Token) :
    defect (parseRegisterALU mk ops) = operandDefect .RegisterALU ops := by
  match ops with
  | [s, d] =>
    calc defect (parseRegisterALU mk [s, d])
        = (defect (regOperand s)).or ((defect (regOperand d)).or none) := defect_bind fun _ => defect_bind fun _ => rfl
      _ = operandDefect .RegisterALU [s, d] := by
        simp [defect_regOperand, ite_some_or, ite_or, operandDefect, arityOk, roles, numDefect]
  | [s, d, f] =>
    calc defect (parseRegisterALU mk [s, d, f])
        = (defect (regOperand s)).or ((defect (regOperand d)).or ((defect (numOperand 1 f)).or none)) :=
          defect_bind fun _ => defect_bind fun _ => defect_bind fun _ => rfl
      _ = operandDefect .RegisterALU [s, d, f] := by
        simp [defect_regOperand, defect_numOperand, ite_some_or, ite_or, operandDefect, arityOk, roles]
  | [] | [_] | _ :: _ :: _ :: _ :: _ => simp [parseRegisterALU, defect, operandDefect, arityOk]

theorem defect_parseNoOperand (i : Instr) (ops : List Token) :
    defect (parseNoOperand i ops) = operandDefect .NoOperand ops := by
  match ops with
  | [] => rfl
  | _ :: _ => simp [parseNoOperand, defect, operandDefect, arityOk]

theorem defect_parsePortIO (mk : Reg → Reg → Instr) (ops : List Token) :
    defect (parsePortIO mk ops) = operandDefect .PortIO ops := by
  match ops with
  | [s, d] =>
    calc defect (parsePortIO mk [s, d])
        = (defect (regOperand s)).or ((defect (regOperand d)).or none) := defect_bind fun _ => defect_bind fun _ => rfl
      _ = operandDefect .PortIO [s, d] := by
        simp [defect_regOperand, ite_some_or, ite_or, operandDefect, arityOk, roles, numDefect]
  | [] | [_] | _ :: _ :: _ :: _ => simp [parsePortIO, defect, operandDefect, arityOk]

theorem defect_parseLoadImmediate (mk : Reg → Nat → Instr) (ops : List Token) :
    defect (parseLoadImmediate mk ops) = operandDefect .LoadImmediate ops := by
  match ops with
  | [d, n] =>
    calc defect (parseLoadImmediate mk [d, n])
        = (defect (regOperand d)).or ((defect (numOperand 22 n)).or none) :=
          defect_bind fun _ => defect_bind fun _ => rfl
      _ = operandDefect .LoadImmediate [d, n] := by
        simp [defect_regOperand, defect_numOperand, ite_some_or, operandDefect, arityOk, roles]
  | [] | [_] | _ :: _ :: _ :: _ => simp [parseLoadImmediate, defect, operandDefect, arityOk]

theorem defect_parseJumpIndirect (mk : Cond → Reg → Instr) (ops : List Token) :
    defect (parseJumpIndirect mk ops) = operandDefect .JumpIndirect ops := by
  match ops with
  | [c, r] =>
    calc defect (parseJumpIndirect mk [c, r])
        = (defect (regOperand r)).or ((defect (condOperand c)).or none) :=
          defect_bind fun _ => defect_bind fun _ => rfl
      _ = operandDefect .JumpIndirect [c, r] := by
        simp [defect_regOperand, defect_condOperand, ite_some_or, operandDefect, arityOk, roles, numDefect]
  | [] | [_] | _ :: _ :: _ :: _ => simp [parseJumpIndirect, defect, operandDefect, arityOk]

theorem defect_parseJumpDirect (mk : Cond → Nat → Instr) (ops : List Token) :
    defect (parseJumpDirect mk ops) = operandDefect .JumpDirect ops := by
  match ops with
  | [c, n] =>
    calc defect (parseJumpDirect mk [c, n])
        = (defect (condOperand c)).or ((defect (numOperand 22 n)).or none) :=
          defect_bind fun _ => defect_bind fun _ => rfl
      _ = operandDefect .JumpDirect [c, n] := by
        simp [defect_condOperand, defect_numOperand, ite_some_or, operandDefect, arityOk, roles]
  | [] | [_] | _ :: _ :: _ :: _ => simp [parseJumpDirect, defect, operandDefect, arityOk]

/-- The operands of a known mnemonic fail as steps 2 to 5 do (R160). -/
theorem defect_parseOperands (m : Mnemonic) (ops : List Token) :
    defect (parseOperands m ops) = operandDefect m.family ops := by
  cases m with
  | NOP => exact defect_parseNoOperand _ ops
  | LOAD | STORE | MOV | ADD | SUB | CMP | AND | OR | XOR | NOT | INC | DEC => exact defect_parseRegisterALU _ ops
  | IN | OUT => exact defect_parsePortIO _ ops
  | LDI => exact defect_parseLoadImmediate _ ops
  | JMP | JMPM => exact defect_parseJumpIndirect _ ops
  | JMPA | JMPR => exact defect_parseJumpDirect _ ops

/-! ### The whole line -/

/-- A line of no mnemonic fails in step 1 (R153). -/
theorem firstDefect_of_not_isLine {ts : List Token} (h : ¬ ∃ m ops, IsLine ts m ops) :
    parse ts = .error .UnknownMnemonic ∧ firstDefect ts = some .UnknownMnemonic := by
  cases ts with
  | nil => exact ⟨rfl, rfl⟩
  | cons t ops =>
    have ht : mnemonicOfToken t = none :=
      Option.eq_none_iff_forall_ne_some.mpr fun m hm => h ⟨m, ops, t, rfl, hm⟩
    exact ⟨by rw [parse, ht], by rw [firstDefect, mnemonicLookup, ht, Option.map_none]⟩

/-- `parse` fails as R60's pseudocode does, and passes when it does. -/
theorem defect_parse (ts : List Token) : defect (parse ts) = firstDefect ts := by
  by_cases h : ∃ m ops, IsLine ts m ops
  · obtain ⟨m, ops, hline⟩ := h
    rw [parse_of_isLine hline, firstDefect_of_isLine hline, defect_parseOperands]
  · obtain ⟨hparse, hdefect⟩ := firstDefect_of_not_isLine h
    rw [hparse, hdefect, defect]

/-- Settles O21: step 1 finds the same mnemonic, and each family's readers stand in the order of steps 2 to 5. -/
theorem parseFailsAtTheFirstDefect : Obligations.ParseFailsAtTheFirstDefect := by
  unfold Obligations.ParseFailsAtTheFirstDefect
  intro ts e
  rw [← defect_eq_some, defect_parse]

theorem mem_operandCounts_iff {fam : Family} {n : Nat} : n ∈ operandCounts fam ↔ arityOk fam n = true := by
  cases fam <;> simp [operandCounts, arityOk]

theorem regCodeOfToken_eq_none {T : Tables} {t : Token} : regCodeOfToken T t = none ↔ (regOfToken t).isNone = true := by
  rw [regCodeOfToken, Option.map_eq_none_iff, Option.isNone_iff_eq_none]

theorem condCodeOfToken_eq_none {T : Tables} {t : Token} :
    condCodeOfToken T t = none ↔ (condOfToken t).isNone = true := by
  rw [condCodeOfToken, Option.map_eq_none_iff, Option.isNone_iff_eq_none]

/-- Steps 2 to 5 fail with `e` exactly when one of them does and every earlier one passes (R154 to R158, R160). -/
theorem operandDefect_eq_some_iff (T : Tables) {fam : Family} {ops : List Token} {e : EncodeError} :
    operandDefect fam ops = some e ↔
      (ops.length ∉ operandCounts fam ∧ e = .OperandCountMismatch) ∨
      (ops.length ∈ operandCounts fam ∧ (∃ t ∈ (roles fam ops).regs, regCodeOfToken T t = none) ∧
        e = .UnknownRegister) ∨
      (ops.length ∈ operandCounts fam ∧ (∀ t ∈ (roles fam ops).regs, regCodeOfToken T t ≠ none) ∧
        (∃ t ∈ (roles fam ops).conds, condCodeOfToken T t = none) ∧ e = .UnknownCondition) ∨
      (ops.length ∈ operandCounts fam ∧ (∀ t ∈ (roles fam ops).regs, regCodeOfToken T t ≠ none) ∧
        (∀ t ∈ (roles fam ops).conds, condCodeOfToken T t ≠ none) ∧ numDefect (roles fam ops).nums = some e) := by
  have hregs : (∃ t ∈ (roles fam ops).regs, regCodeOfToken T t = none) ↔
      ((roles fam ops).regs.any fun r => (regOfToken r).isNone) = true := by
    simp only [regCodeOfToken_eq_none, List.any_eq_true]
  have hconds : (∃ t ∈ (roles fam ops).conds, condCodeOfToken T t = none) ↔
      ((roles fam ops).conds.any fun c => (condOfToken c).isNone) = true := by
    simp only [condCodeOfToken_eq_none, List.any_eq_true]
  have hregs_pass : (∀ t ∈ (roles fam ops).regs, regCodeOfToken T t ≠ none) ↔
      ¬ ((roles fam ops).regs.any fun r => (regOfToken r).isNone) = true := by
    rw [← hregs]
    simp only [not_exists, not_and, ne_eq]
  have hconds_pass : (∀ t ∈ (roles fam ops).conds, condCodeOfToken T t ≠ none) ↔
      ¬ ((roles fam ops).conds.any fun c => (condOfToken c).isNone) = true := by
    rw [← hconds]
    simp only [not_exists, not_and, ne_eq]
  rw [hregs, hconds, hregs_pass, hconds_pass, mem_operandCounts_iff, operandDefect]
  cases arityOk fam ops.length with
  | false => simp [eq_comm (a := e)]
  | true =>
    cases (roles fam ops).regs.any fun r => (regOfToken r).isNone with
    | true => simp [eq_comm (a := e)]
    | false => cases (roles fam ops).conds.any fun c => (condOfToken c).isNone <;> simp [eq_comm (a := e)]

/-- A numeric operand fails in two ways only (R157, R158). -/
theorem numDefect_eq_some {l : List (Token × Nat)} {e : EncodeError} (h : numDefect l = some e) :
    e = .InvalidImmediate ∨ e = .ImmediateOutOfRange := by
  induction l with
  | nil => cases h
  | cons n rest ih =>
    obtain ⟨t, width⟩ := n
    rw [numDefect] at h
    cases hv : parseNum t with
    | none =>
      rw [hv] at h
      cases h
      exact .inl rfl
    | some v =>
      simp only [hv] at h
      split at h
      · cases h
        exact .inr rfl
      · exact ih h

theorem numDefect_singleton_invalid {t : Token} {width : Nat} :
    numDefect [(t, width)] = some .InvalidImmediate ↔ parseNum t = none := by
  cases hv : parseNum t with
  | none => simp [numDefect, hv]
  | some v => by_cases hgt : v > 2 ^ width - 1 <;> simp [numDefect, hv, hgt]

theorem numDefect_singleton_range {t : Token} {width : Nat} :
    numDefect [(t, width)] = some .ImmediateOutOfRange ↔ ∃ v, parseNum t = some v ∧ 2 ^ width - 1 < v := by
  cases hv : parseNum t with
  | none => simp [numDefect, hv]
  | some v => by_cases hgt : v > 2 ^ width - 1 <;> simp [numDefect, hv, hgt]

/-- A line has at most one numeric operand: a flag, one bit wide, or an immediate of 22 bits (R66). -/
theorem roles_nums (fam : Family) (ops : List Token) :
    (roles fam ops).nums = [] ∨ ∃ t, (roles fam ops).nums = [(t, if fam = .RegisterALU then 1 else 22)] := by
  unfold roles
  split <;> simp

theorem roles_regs_eq_nil {fam : Family} (h : fam ∉ [Family.RegisterALU, .PortIO, .LoadImmediate, .JumpIndirect])
    (ops : List Token) : (roles fam ops).regs = [] := by
  unfold roles
  split <;> simp at h ⊢

theorem roles_conds_eq_nil {fam : Family} (h : fam ∉ [Family.JumpIndirect, .JumpDirect]) (ops : List Token) :
    (roles fam ops).conds = [] := by
  unfold roles
  split <;> simp at h ⊢

theorem roles_nums_eq_nil {fam : Family} (h : fam ∉ [Family.RegisterALU, .LoadImmediate, .JumpDirect])
    (ops : List Token) : (roles fam ops).nums = [] := by
  unfold roles
  split <;> simp at h ⊢

/-- A line that fails past step 1 has a mnemonic, and its operands fail so. -/
theorem encode_error_iff {T : Tables} {ts : List Token} {e : EncodeError} (he : e ≠ .UnknownMnemonic) :
    encode T ts = .error e ↔ ∃ m ops, IsLine ts m ops ∧ operandDefect m.family ops = some e := by
  rw [encode_eq_error]
  constructor
  · intro h
    obtain ⟨m, ops, hline⟩ := exists_isLine_of_parse_error h he
    rw [parse_of_isLine hline, ← defect_eq_some, defect_parseOperands] at h
    exact ⟨m, ops, hline, h⟩
  · rintro ⟨m, ops, hline, h⟩
    rwa [parse_of_isLine hline, ← defect_eq_some, defect_parseOperands]

theorem encode_token_error_iff {T : Tables} {m : Mnemonic} {ops : List Token} {e : EncodeError} :
    encode T (m.token :: ops) = .error e ↔ operandDefect m.family ops = some e := by
  rw [encode_eq_error, parse_cons_token, ← defect_eq_some, defect_parseOperands]

/-! ### The failures one by one -/

/-- A line of no mnemonic is one whose token 0 stands in none of R39's rows. -/
theorem notMem_mnemonicRows_iff {t : Token} : t ∉ mnemonicRows.map (·.1) ↔ mnemonicOfToken t = none := by
  rw [mnemonicRows_eq, List.map_map, Option.eq_none_iff_forall_ne_some, List.mem_map, not_exists]
  refine forall_congr' fun m => ?_
  rw [not_and, ne_eq]
  exact ⟨fun h hm => h m.mem_all (token_of_mnemonicOfToken hm).symm, fun h _ ht => h (ht ▸ mnemonicOfToken_token m)⟩

theorem operandDefect_ne_unknownMnemonic (fam : Family) (ops : List Token) :
    operandDefect fam ops ≠ some .UnknownMnemonic := by
  intro h
  have hnum : numDefect (roles fam ops).nums ≠ some .UnknownMnemonic := fun h => by simpa using numDefect_eq_some h
  simp [operandDefect_eq_some_iff Tables.default, hnum] at h

theorem encode_unknownMnemonic_iff {T : Tables} {ts : List Token} :
    encode T ts = .error .UnknownMnemonic ↔ ts = [] ∨ ∃ t ops, ts = t :: ops ∧ t ∉ mnemonicRows.map (·.1) := by
  simp only [encode_eq_error, notMem_mnemonicRows_iff]
  cases ts with
  | nil => simp [parse]
  | cons t ops =>
    cases ht : mnemonicOfToken t with
    | none => simp [parse, ht]
    | some m =>
      have hparse : parse (t :: ops) ≠ .error .UnknownMnemonic := by
        rw [parse_of_isLine ⟨t, rfl, ht⟩, ne_eq, ← defect_eq_some, defect_parseOperands]
        exact operandDefect_ne_unknownMnemonic m.family ops
      simp [hparse, ht]

/-- Settles O22: `encode_unknownMnemonic_iff`; the examples fail in step 1 of `parse`. -/
theorem unknownMnemonicExactly : Obligations.UnknownMnemonicExactly := by
  unfold Obligations.UnknownMnemonicExactly
  intro T
  simp only [encode_eq_error]
  exact ⟨fun ts => encode_eq_error.symm.trans (encode_unknownMnemonic_iff (T := T)), by decide⟩

theorem operandDefect_unknownRegister_iff (T : Tables) {fam : Family} {ops : List Token} :
    operandDefect fam ops = some .UnknownRegister ↔
      ops.length ∈ operandCounts fam ∧ ∃ t ∈ (roles fam ops).regs, regCodeOfToken T t = none := by
  have hnum : numDefect (roles fam ops).nums ≠ some .UnknownRegister := fun h => by simpa using numDefect_eq_some h
  simp [operandDefect_eq_some_iff T, hnum]

theorem operandDefect_unknownCondition_iff (T : Tables) {fam : Family} {ops : List Token} :
    operandDefect fam ops = some .UnknownCondition ↔
      ops.length ∈ operandCounts fam ∧ (∀ t ∈ (roles fam ops).regs, regCodeOfToken T t ≠ none) ∧
        ∃ t ∈ (roles fam ops).conds, condCodeOfToken T t = none := by
  have hnum : numDefect (roles fam ops).nums ≠ some .UnknownCondition := fun h => by simpa using numDefect_eq_some h
  simp [operandDefect_eq_some_iff T, hnum]

theorem operandDefect_invalidImmediate_iff (T : Tables) {fam : Family} {ops : List Token} :
    operandDefect fam ops = some .InvalidImmediate ↔
      ops.length ∈ operandCounts fam ∧ (∀ t ∈ (roles fam ops).regs, regCodeOfToken T t ≠ none) ∧
        (∀ t ∈ (roles fam ops).conds, condCodeOfToken T t ≠ none) ∧
        ∃ n ∈ (roles fam ops).nums, parseNum n.1 = none := by
  have hnum : numDefect (roles fam ops).nums = some .InvalidImmediate ↔
      ∃ n ∈ (roles fam ops).nums, parseNum n.1 = none := by
    rcases roles_nums fam ops with h | ⟨t, h⟩
    · simp [h, numDefect]
    · simp [h, numDefect_singleton_invalid]
  simp [operandDefect_eq_some_iff T, hnum]

theorem operandDefect_outOfRange_iff (T : Tables) {fam : Family} {ops : List Token} :
    operandDefect fam ops = some .ImmediateOutOfRange ↔
      ops.length ∈ operandCounts fam ∧ (∀ t ∈ (roles fam ops).regs, regCodeOfToken T t ≠ none) ∧
        (∀ t ∈ (roles fam ops).conds, condCodeOfToken T t ≠ none) ∧
        ∃ n ∈ (roles fam ops).nums, ∃ v, parseNum n.1 = some v ∧ (if fam = .RegisterALU then 1 else 4194303) < v := by
  have hwidth : 2 ^ (if fam = .RegisterALU then 1 else 22) - 1 = if fam = .RegisterALU then 1 else 4194303 := by
    split <;> rfl
  have hnum : numDefect (roles fam ops).nums = some .ImmediateOutOfRange ↔
      ∃ n ∈ (roles fam ops).nums, ∃ v, parseNum n.1 = some v ∧ (if fam = .RegisterALU then 1 else 4194303) < v := by
    rcases roles_nums fam ops with h | ⟨t, h⟩
    · simp [h, numDefect]
    · simp only [h, List.mem_singleton, exists_eq_left, numDefect_singleton_range, hwidth]
  simp [operandDefect_eq_some_iff T, hnum]

/-- The families with a register operand can fail on it, and no other (R155). -/
theorem exists_unknownRegister_iff (fam : Family) :
    (∃ ops, operandDefect fam ops = some .UnknownRegister) ↔
      fam ∈ [Family.RegisterALU, .PortIO, .LoadImmediate, .JumpIndirect] := by
  constructor
  · rintro ⟨ops, h⟩
    by_contra hfam
    obtain ⟨-, t, ht, -⟩ := (operandDefect_unknownRegister_iff Tables.default).mp h
    simp [roles_regs_eq_nil hfam] at ht
  · intro hfam
    refine ⟨[chars "?", chars "?"], ?_⟩
    revert fam
    decide

/-- The jump families have a condition operand and can fail on it, and no other (R156). -/
theorem exists_unknownCondition_iff (fam : Family) :
    (∃ ops, operandDefect fam ops = some .UnknownCondition) ↔ fam ∈ [Family.JumpIndirect, .JumpDirect] := by
  constructor
  · rintro ⟨ops, h⟩
    by_contra hfam
    obtain ⟨-, -, t, ht, -⟩ := (operandDefect_unknownCondition_iff Tables.default).mp h
    simp [roles_conds_eq_nil hfam] at ht
  · intro hfam
    refine ⟨[chars "?", chars "A"], ?_⟩
    revert fam
    decide

/-- The families with a numeric operand can fail on it, and no other (R157). -/
theorem exists_invalidImmediate_iff (fam : Family) :
    (∃ ops, operandDefect fam ops = some .InvalidImmediate) ↔
      fam ∈ [Family.RegisterALU, .LoadImmediate, .JumpDirect] := by
  constructor
  · rintro ⟨ops, h⟩
    by_contra hfam
    obtain ⟨-, -, -, n, hn, -⟩ := (operandDefect_invalidImmediate_iff Tables.default).mp h
    simp [roles_nums_eq_nil hfam] at hn
  · intro hfam
    cases fam with
    | RegisterALU => exact ⟨[chars "A", chars "A", chars "?"], by decide⟩
    | LoadImmediate | JumpDirect => exact ⟨[chars "C", chars "?"], by decide⟩
    | NoOperand | PortIO | JumpIndirect => simp at hfam

/-- Settles O24: `operandDefect_unknownRegister_iff`; two question marks are bad operands where registers are asked. -/
theorem unknownRegisterExactly : Obligations.UnknownRegisterExactly := by
  unfold Obligations.UnknownRegisterExactly
  intro T
  refine ⟨fun ts => ?_, fun m => ?_, ?_⟩
  · simp only [encode_error_iff (e := .UnknownRegister) nofun, operandDefect_unknownRegister_iff T]
  · simp only [encode_token_error_iff, exists_unknownRegister_iff]
  · simp only [encode_eq_error]
    decide

/-- Settles O25: `operandDefect_unknownCondition_iff`; the jump mnemonics are those of the two jump families. -/
theorem unknownConditionExactly : Obligations.UnknownConditionExactly := by
  unfold Obligations.UnknownConditionExactly
  intro T
  refine ⟨fun ts => ?_, fun m => ?_, ?_⟩
  · simp only [encode_error_iff (e := .UnknownCondition) nofun, operandDefect_unknownCondition_iff T]
  · simp only [encode_token_error_iff, exists_unknownCondition_iff]
    cases m <;> decide
  · simp only [encode_eq_error]
    decide

/-- Settles O26: `operandDefect_invalidImmediate_iff`; with two operands a RegisterALU line has no numeral. -/
theorem invalidImmediateExactly : Obligations.InvalidImmediateExactly := by
  unfold Obligations.InvalidImmediateExactly
  intro T
  refine ⟨fun ts => ?_, fun m => ?_, fun m hm s d h => ?_, ?_⟩
  · simp only [encode_error_iff (e := .InvalidImmediate) nofun, operandDefect_invalidImmediate_iff T]
  · simp only [encode_token_error_iff, exists_invalidImmediate_iff]
  · rw [encode_token_error_iff, operandDefect_invalidImmediate_iff T, hm] at h
    obtain ⟨-, -, -, n, hn, -⟩ := h
    cases hn
  · simp only [encode_eq_error]
    decide

/-- Settles O27: `operandDefect_outOfRange_iff`. -/
theorem immediateOutOfRangeExactly : Obligations.ImmediateOutOfRangeExactly := by
  unfold Obligations.ImmediateOutOfRangeExactly
  intro T
  refine ⟨fun ts => ?_, ?_⟩
  · simp only [encode_error_iff (e := .ImmediateOutOfRange) nofun, operandDefect_outOfRange_iff T]
  · simp only [encode_eq_error]
    decide

/-! ### Proper lines, and lines that are too long -/

theorem numOperand_of_le {width v : Nat} {t : Token} (h : parseNum t = some v) (hv : v ≤ 2 ^ width - 1) :
    numOperand width t = .ok v :=
  numOperand_ok.mpr ⟨h, hv⟩

/-- A line whose operands parse encodes to the packing of its instruction (R60). -/
theorem encode_token_of_parse {T : Tables} {m : Mnemonic} {ops : List Token} {i : Instr}
    (h : parseOperands m ops = .ok i) : encode T (m.token :: ops) = .ok (pack T i) :=
  encode_eq_ok.mpr ⟨i, (parse_cons_token m ops).trans h, rfl⟩

theorem parseRegisterALU_two (mk : Reg → Reg → Nat → Instr) (s d : Reg) :
    parseRegisterALU mk [s.token, d.token] = .ok (mk s d 0) := by
  simp only [parseRegisterALU, regOperand_token]
  rfl

theorem parseRegisterALU_three (mk : Reg → Reg → Nat → Instr) (s d : Reg) {t : Token} {f : Nat}
    (ht : parseNum t = some f) (hf : f ≤ 1) : parseRegisterALU mk [s.token, d.token, t] = .ok (mk s d f) := by
  simp only [parseRegisterALU, regOperand_token, numOperand_of_le (width := 1) ht hf]
  rfl

theorem parsePortIO_two (mk : Reg → Reg → Instr) (s d : Reg) :
    parsePortIO mk [s.token, d.token] = .ok (mk s d) := by
  simp only [parsePortIO, regOperand_token]
  rfl

theorem parseLoadImmediate_two (mk : Reg → Nat → Instr) (d : Reg) {t : Token} {v : Nat} (ht : parseNum t = some v)
    (hv : v ≤ maxImm) : parseLoadImmediate mk [d.token, t] = .ok (mk d v) := by
  simp only [parseLoadImmediate, regOperand_token, numOperand_of_le (width := 22) ht hv]
  rfl

theorem parseJumpIndirect_two (mk : Cond → Reg → Instr) (c : Cond) (r : Reg) :
    parseJumpIndirect mk [c.token, r.token] = .ok (mk c r) := by
  simp only [parseJumpIndirect, regOperand_token, condOperand_token]
  rfl

theorem parseJumpDirect_two (mk : Cond → Nat → Instr) (c : Cond) {t : Token} {v : Nat} (ht : parseNum t = some v)
    (hv : v ≤ maxImm) : parseJumpDirect mk [c.token, t] = .ok (mk c v) := by
  simp only [parseJumpDirect, condOperand_token, numOperand_of_le (width := 22) ht hv]
  rfl

/-- Settles O28: each family's reader on operands of its shape. -/
theorem properLinesEncode : Obligations.ProperLinesEncode := by
  unfold Obligations.ProperLinesEncode
  intro T
  refine ⟨encode_token_of_parse (m := .NOP) rfl, fun r hr s d => ⟨?_, fun t f ht hf => ?_⟩, fun r hr s d => ?_,
    fun d t v ht hv => ?_, fun c r => ⟨?_, ?_⟩, fun c t v ht hv => ⟨?_, ?_⟩⟩
  · exact encode_token_of_parse ((isRegisterALU_of_mem r hr).parses ▸ parseRegisterALU_two _ s d)
  · exact encode_token_of_parse ((isRegisterALU_of_mem r hr).parses ▸ parseRegisterALU_three _ s d ht hf)
  · exact encode_token_of_parse ((isPortIO_of_mem r hr).parses ▸ parsePortIO_two _ s d)
  · exact encode_token_of_parse (m := .LDI) (parseLoadImmediate_two .ldi d ht hv)
  · exact encode_token_of_parse (m := .JMP) (parseJumpIndirect_two .jmp c r)
  · exact encode_token_of_parse (m := .JMPM) (parseJumpIndirect_two .jmpm c r)
  · exact encode_token_of_parse (m := .JMPA) (parseJumpDirect_two .jmpa c ht hv)
  · exact encode_token_of_parse (m := .JMPR) (parseJumpDirect_two .jmpr c ht hv)

/-- No family takes more than three operands (R64). -/
theorem notMem_operandCounts_of_four_le {n : Nat} (h : 4 ≤ n) (fam : Family) : n ∉ operandCounts fam := by
  cases fam <;> simp [operandCounts] <;> omega

/-- Five or more tokens fail by token 0 alone, whether it is a mnemonic or not (R62). -/
theorem encode_of_five_le (T : Tables) {t : Token} {ops : List Token} (h : 4 ≤ ops.length) :
    encode T (t :: ops) =
      .error (if (mnemonicOfToken t).isSome then .OperandCountMismatch else .UnknownMnemonic) := by
  rw [encode_eq_error]
  cases ht : mnemonicOfToken t with
  | none => simp [parse, ht]
  | some m =>
    rw [parse_of_isLine ⟨t, rfl, ht⟩]
    exact (parseOperands_countMismatch_iff m ops).mpr (notMem_operandCounts_of_four_le h m.family)

/-- Settles O30: up to four tokens the first four are all of them, and past that token 0 alone decides. -/
theorem onlyFirstFourTokensMatter : Obligations.OnlyFirstFourTokensMatter := by
  unfold Obligations.OnlyFirstFourTokensMatter
  refine fun T ts us => ⟨fun hlen htake => ?_, fun hfive => ?_⟩
  · by_cases hfour : ts.length ≤ 4
    · rw [List.take_of_length_le hfour, List.take_of_length_le (hlen ▸ hfour)] at htake
      rw [htake]
    · match ts, us with
      | [], _ => simp at hfour
      | _ :: _, [] => simp at hlen
      | t :: ops, u :: ops' =>
        have hops : 4 ≤ ops.length := by simp at hfour; omega
        have hops' : 4 ≤ ops'.length := by simp at hlen; omega
        obtain ⟨rfl, -⟩ : t = u ∧ _ := List.cons.inj htake
        rw [encode_of_five_le T hops, encode_of_five_le T hops']
  · match ts with
    | [] => simp at hfive
    | t :: ops =>
      rw [encode_of_five_le T (by simpa using hfive)]
      cases mnemonicOfToken t with
      | none => exact .inl rfl
      | some m => exact .inr rfl

end Sys2Proof

/-! ## Text: what the tokenizer splits, what the renderer prints, and that one undoes the other (R61, R92, R94, R97) -/

namespace Sys2Proof

open Machine Spec

/-! ### The tokenizer (R61) -/

/-- A line of whitespace has no tokens. -/
theorem tokenize_of_whitespace (T : Tables) {u : Text} (hu : ∀ c ∈ u, c ∈ T.whitespace) : tokenize T u = [] := by
  have h := tokenizeFrom_whitespace T u hu []
  rwa [List.append_nil] at h

/-- Whitespace, a run of other characters, and an end: the run is the first token. -/
theorem tokenize_run (T : Tables) {u : Text} {t : Token} {rest : Text} (hu : ∀ c ∈ u, c ∈ T.whitespace) (ht : t ≠ [])
    (htok : ∀ c ∈ t, c ∉ T.whitespace) (hrest : ∀ c, rest.head? = some c → c ∈ T.whitespace) :
    tokenize T (u ++ t ++ rest) = t :: tokenize T rest := by
  unfold tokenize
  rw [List.append_assoc, tokenizeFrom_whitespace T u hu, tokenizeFrom_token T t [] htok, List.nil_append,
    tokenizeFrom_end T t ht rest hrest]

theorem mem_endToken {t tok : Token} : t ∈ endToken tok ↔ t = tok ∧ tok ≠ [] := by
  by_cases h : tok = [] <;> simp [endToken, h]

/-- Every token is a non-empty run of other characters than whitespace, if the one being read is a run of such. -/
theorem mem_tokenizeFrom {T : Tables} {cur : Token} (hcur : ∀ c ∈ cur, c ∉ T.whitespace) {line : Text} {t : Token}
    (h : t ∈ tokenizeFrom T cur line) : t ≠ [] ∧ ∀ c ∈ t, c ∉ T.whitespace := by
  induction line generalizing cur with
  | nil =>
    obtain ⟨rfl, hne⟩ := mem_endToken.mp h
    exact ⟨hne, hcur⟩
  | cons c cs ih =>
    rw [tokenizeFrom] at h
    split at h
    · rcases List.mem_append.mp h with hend | htail
      · obtain ⟨rfl, hne⟩ := mem_endToken.mp hend
        exact ⟨hne, hcur⟩
      · exact ih (cur := []) nofun htail
    · rename_i hc
      rw [whitespace_contains] at hc
      refine ih (cur := cur ++ [c]) (fun d hd => ?_) h
      rcases List.mem_append.mp hd with hold | hnew
      · exact hcur d hold
      · rw [List.mem_singleton.mp hnew]
        exact hc

/-- Settles O32: the three facts above. -/
theorem tokenizeTakesMaximalRuns : Obligations.TokenizeTakesMaximalRuns := by
  unfold Obligations.TokenizeTakesMaximalRuns
  exact fun T => ⟨fun u hu => tokenize_of_whitespace T hu,
    fun u t rest hu ht htok hrest => tokenize_run T hu ht htok hrest,
    fun line t ht => mem_tokenizeFrom (cur := []) (fun _ hc => nomatch hc) ht⟩

/-! ### Joined tokens split again -/

/-- A token made of the characters of canonical text. -/
def IsTextToken (t : Token) : Prop := t ≠ [] ∧ ∀ c ∈ t, c ∈ textChars

theorem joinTokens_cons_cons (t u : Token) (ts : List Token) :
    joinTokens (t :: u :: ts) = t ++ chars " " ++ joinTokens (u :: ts) := by
  rw [joinTokens, List.append_assoc]
  rfl

theorem IsTextToken.not_whitespace {t : Token} (h : IsTextToken t) (T : Tables) : ∀ c ∈ t, c ∉ T.whitespace :=
  fun _ hc => not_whitespace_of_textChar T (h.2 _ hc)

theorem IsTextToken.isToken {t : Token} (h : IsTextToken t) (T : Tables) : isToken T t = true := by
  rw [Machine.isToken, List.all_eq_true]
  intro c hc
  rw [Bool.not_eq_true', ← Bool.not_eq_true, whitespace_contains]
  exact h.not_whitespace T c hc

/-- Tokens of canonical text, joined by spaces, split into themselves, in any configuration (log 3). -/
theorem tokenize_joinTokens (T : Tables) {ts : List Token} (h : ∀ t ∈ ts, IsTextToken t) :
    tokenize T (joinTokens ts) = ts := by
  induction ts with
  | nil => rfl
  | cons t ts ih =>
    obtain ⟨ht, hts⟩ := List.forall_mem_cons.mp h
    cases ts with
    | nil =>
      have hrun := tokenize_run T (u := []) (rest := []) nofun ht.1 (ht.not_whitespace T) nofun
      rwa [List.append_nil] at hrun
    | cons u us =>
      have hspace : ∀ c ∈ chars " ", c ∈ T.whitespace := fun c hc => by
        rw [List.mem_singleton.mp hc]
        exact T.space_separates
      have hrun := tokenize_run T (u := []) (rest := chars " " ++ joinTokens (u :: us)) nofun ht.1
        (ht.not_whitespace T) fun c hc => hspace c (by cases hc; exact List.mem_singleton_self _)
      have hskip : tokenize T (chars " " ++ joinTokens (u :: us)) = tokenize T (joinTokens (u :: us)) :=
        tokenizeFrom_whitespace T _ hspace _
      rw [joinTokens_cons_cons, List.append_assoc, ← List.nil_append t, hrun, hskip, ih hts, List.nil_append]

theorem isTextToken_decimal (v : Nat) : IsTextToken (decimal v) := by
  refine ⟨decimal_ne_nil v, fun c hc => ?_⟩
  have hdigits : ∀ n ≤ 57, 48 ≤ n → Char.ofNat n ∈ textChars := by decide
  obtain ⟨hlo, hhi⟩ : 48 ≤ c.toNat ∧ c.toNat ≤ 57 := by
    have hdigit := isDigit_of_mem_decimal hc
    simpa [Char.isDigit, UInt32.le_iff_toNat_le] using hdigit
  have hmem := hdigits c.toNat hhi hlo
  rwa [Char.ofNat_toNat] at hmem

theorem isTextToken_bin6 (c : BitVec 6) : IsTextToken (bin6 c) := by
  refine ⟨nofun, fun d hd => ?_⟩
  obtain ⟨k, -, rfl⟩ := List.mem_map.mp hd
  unfold binDigit
  split <;> decide

theorem isTextToken_of_mem_registerALUTokens {src dst : Reg} {flag : Nat} :
    ∀ t ∈ registerALUTokens src dst flag, IsTextToken t := by
  simp only [registerALUTokens, List.forall_mem_cons]
  refine ⟨Reg.token_text src, Reg.token_text dst, fun t ht => ?_⟩
  unfold flagTokens at ht
  split at ht
  · cases ht
  · rw [List.mem_singleton.mp ht]
    exact isTextToken_decimal flag

/-- Canonical operand tokens are made of text (R92). -/
theorem isTextToken_of_mem_operandTokens (i : Instr) : ∀ t ∈ operandTokens i, IsTextToken t := by
  cases i with
  | nop => exact nofun
  | load src dst flag | store src dst flag | mov src dst flag | add src dst flag | sub src dst flag
  | cmp src dst flag | and src dst flag | or src dst flag | xor src dst flag | not src dst flag | inc src dst flag
  | dec src dst flag => exact isTextToken_of_mem_registerALUTokens
  | portIn src dst | portOut src dst =>
    exact List.forall_mem_cons.mpr ⟨Reg.token_text src, List.forall_mem_singleton.mpr (Reg.token_text dst)⟩
  | ldi dst imm =>
    exact List.forall_mem_cons.mpr ⟨Reg.token_text dst, List.forall_mem_singleton.mpr (isTextToken_decimal imm)⟩
  | jmp cond reg | jmpm cond reg =>
    exact List.forall_mem_cons.mpr ⟨Cond.token_text cond, List.forall_mem_singleton.mpr (Reg.token_text reg)⟩
  | jmpa cond imm | jmpr cond imm =>
    exact List.forall_mem_cons.mpr ⟨Cond.token_text cond, List.forall_mem_singleton.mpr (isTextToken_decimal imm)⟩

theorem isTextToken_of_mem_renderTokens (d : DecodedLine) : ∀ t ∈ renderTokens d, IsTextToken t := by
  cases d with
  | known i => exact List.forall_mem_cons.mpr ⟨Mnemonic.token_text i.mnemonic, isTextToken_of_mem_operandTokens i⟩
  | unknown c =>
    have hmarks : IsTextToken (chars "???") := ⟨by simp [chars], by simp [chars, textChars]⟩
    exact List.forall_mem_cons.mpr ⟨hmarks, List.forall_mem_singleton.mpr (isTextToken_bin6 c)⟩

/-- The canonical text splits into the canonical tokens, in any configuration (R97). -/
theorem tokenize_render (T : Tables) (d : DecodedLine) : tokenize T (render d) = renderTokens d :=
  tokenize_joinTokens T (isTextToken_of_mem_renderTokens d)

/-! ### Canonical tokens parse back (R97) -/

/-- The flag is printed when it is 1 and defaults to 0 when it is not (R49, R92). -/
theorem parseRegisterALU_tokens (mk : Reg → Reg → Nat → Instr) (s d : Reg) {flag : Nat} (h : flag ≤ 1) :
    parseRegisterALU mk (registerALUTokens s d flag) = .ok (mk s d flag) := by
  by_cases hzero : flag = 0
  · rw [hzero]
    exact parseRegisterALU_two mk s d
  · rw [registerALUTokens, flagTokens, if_neg hzero]
    exact parseRegisterALU_three mk s d (parseNum_decimal flag) h

/-- The canonical operand tokens of a well-formed instruction are read back by its mnemonic's reader. -/
theorem parseOperands_operandTokens {i : Instr} (hwf : i.WellFormed) :
    parseOperands i.mnemonic (operandTokens i) = .ok i := by
  cases i with
  | nop => rfl
  | load src dst flag | store src dst flag | mov src dst flag | add src dst flag | sub src dst flag
  | cmp src dst flag | and src dst flag | or src dst flag | xor src dst flag | not src dst flag | inc src dst flag
  | dec src dst flag => exact parseRegisterALU_tokens _ src dst (of_decide_eq_true hwf)
  | portIn src dst | portOut src dst => exact parsePortIO_two _ src dst
  | ldi dst imm => exact parseLoadImmediate_two _ dst (parseNum_decimal imm) (of_decide_eq_true hwf)
  | jmp cond reg | jmpm cond reg => exact parseJumpIndirect_two _ cond reg
  | jmpa cond imm | jmpr cond imm => exact parseJumpDirect_two _ cond (parseNum_decimal imm) (of_decide_eq_true hwf)

theorem parse_renderTokens {i : Instr} (hwf : i.WellFormed) : parse (renderTokens (.known i)) = .ok i :=
  (parse_cons_token _ _).trans (parseOperands_operandTokens hwf)

/-- Settles O34: token 0 spells the mnemonic, and its family's reader undoes the canonical operand tokens. -/
theorem canonicalTokensParseBack : Obligations.CanonicalTokensParseBack := by
  unfold Obligations.CanonicalTokensParseBack
  exact fun i => parse_renderTokens

theorem encode_renderTokens (T : Tables) {i : Instr} (hwf : i.WellFormed) :
    encode T (renderTokens (.known i)) = .ok (pack T i) :=
  encode_eq_ok.mpr ⟨i, parse_renderTokens hwf, rfl⟩

/-- The canonical tokens of what a canonical word decodes to encode to the word (R96, R97). -/
theorem encode_renderTokens_of_canonical {T : Tables} {w : Word} (hcan : canonical T w = true) :
    encode T (renderTokens (decode T w)) = .ok w := by
  obtain ⟨i, hdec⟩ := exists_known_of_canonical hcan
  rw [hdec, encode_renderTokens T (wf_of_decode_known hdec), pack_of_canonical hdec hcan]

/-- Settles O35: `tokenize_render`, then `encode_renderTokens_of_canonical`. -/
theorem canonicalTextAssemblesBack : Obligations.CanonicalTextAssemblesBack := by
  unfold Obligations.CanonicalTextAssemblesBack
  refine fun T w => ⟨tokenize_render T _, fun hcan => ?_⟩
  rw [tokenize_render]
  exact encode_renderTokens_of_canonical hcan

/-- An `Unknown`'s text is no line: `???` is no mnemonic (R94). -/
theorem encode_tokenize_render_unknown (T : Tables) (c : BitVec 6) :
    encode T (tokenize T (render (.unknown c))) = .error .UnknownMnemonic := by
  have hmarks : mnemonicOfToken (chars "???") = none := by decide
  rw [tokenize_render, renderTokens, encode_eq_error, parse, hmarks]

/-- The six digits are those of bits 5 to 0, whose value is the opcode. -/
theorem foldl_bits_eq_toNat (c : BitVec 6) :
    ([5, 4, 3, 2, 1, 0].map c.getLsbD).foldl (fun a b => 2 * a + b.toNat) 0 = c.toNat := by
  have hlt := c.isLt
  simp only [List.map_cons, List.map_nil, List.foldl_cons, List.foldl_nil, BitVec.getLsbD, Nat.toNat_testBit]
  omega

theorem render_unknown (c : BitVec 6) : render (.unknown c) = chars "??? " ++ bin6 c := rfl

/-- Settles O36: the digits are the opcode's bits from bit 5 down. -/
theorem unknownTextIsNoLine : Obligations.UnknownTextIsNoLine := by
  unfold Obligations.UnknownTextIsNoLine
  refine fun T c => ⟨⟨[5, 4, 3, 2, 1, 0].map c.getLsbD, rfl, foldl_bits_eq_toNat c, ?_⟩,
    encode_tokenize_render_unknown T c⟩
  rw [render_unknown, bin6, List.map_map]
  rfl

/-! ### What parses is well-formed, and what encodes is canonical (R52, R76) -/

theorem parseRegisterALU_ok {mk : Reg → Reg → Nat → Instr} {ops : List Token} {i : Instr}
    (h : parseRegisterALU mk ops = .ok i) : ∃ s d f, f ≤ 1 ∧ mk s d f = i := by
  match ops with
  | [s, d] =>
    obtain ⟨src, -, h⟩ := bind_eq_ok.mp h
    obtain ⟨dst, -, h⟩ := bind_eq_ok.mp h
    injection h with h
    exact ⟨src, dst, 0, by decide, h⟩
  | [s, d, f] =>
    obtain ⟨src, -, h⟩ := bind_eq_ok.mp h
    obtain ⟨dst, -, h⟩ := bind_eq_ok.mp h
    obtain ⟨flag, hflag, h⟩ := bind_eq_ok.mp h
    injection h with h
    exact ⟨src, dst, flag, (numOperand_ok.mp hflag).2, h⟩
  | [] | [_] | _ :: _ :: _ :: _ :: _ => cases h

theorem parseLoadImmediate_ok {mk : Reg → Nat → Instr} {ops : List Token} {i : Instr}
    (h : parseLoadImmediate mk ops = .ok i) : ∃ d v, v ≤ maxImm ∧ mk d v = i := by
  match ops with
  | [d, n] =>
    obtain ⟨dst, -, h⟩ := bind_eq_ok.mp h
    obtain ⟨imm, himm, h⟩ := bind_eq_ok.mp h
    injection h with h
    exact ⟨dst, imm, (numOperand_ok.mp himm).2, h⟩
  | [] | [_] | _ :: _ :: _ :: _ => cases h

theorem parseJumpDirect_ok {mk : Cond → Nat → Instr} {ops : List Token} {i : Instr}
    (h : parseJumpDirect mk ops = .ok i) : ∃ c v, v ≤ maxImm ∧ mk c v = i := by
  match ops with
  | [c, n] =>
    obtain ⟨cond, -, h⟩ := bind_eq_ok.mp h
    obtain ⟨imm, himm, h⟩ := bind_eq_ok.mp h
    injection h with h
    exact ⟨cond, imm, (numOperand_ok.mp himm).2, h⟩
  | [] | [_] | _ :: _ :: _ :: _ => cases h

theorem parsePortIO_ok {mk : Reg → Reg → Instr} {ops : List Token} {i : Instr} (h : parsePortIO mk ops = .ok i) :
    ∃ s d, mk s d = i := by
  match ops with
  | [s, d] =>
    obtain ⟨src, -, h⟩ := bind_eq_ok.mp h
    obtain ⟨dst, -, h⟩ := bind_eq_ok.mp h
    injection h with h
    exact ⟨src, dst, h⟩
  | [] | [_] | _ :: _ :: _ :: _ => cases h

theorem parseJumpIndirect_ok {mk : Cond → Reg → Instr} {ops : List Token} {i : Instr}
    (h : parseJumpIndirect mk ops = .ok i) : ∃ c r, mk c r = i := by
  match ops with
  | [c, r] =>
    obtain ⟨reg, -, h⟩ := bind_eq_ok.mp h
    obtain ⟨cond, -, h⟩ := bind_eq_ok.mp h
    injection h with h
    exact ⟨cond, reg, h⟩
  | [] | [_] | _ :: _ :: _ :: _ => cases h

theorem parseNoOperand_ok {i j : Instr} {ops : List Token} (h : parseNoOperand i ops = .ok j) : i = j := by
  match ops with
  | [] => injection h
  | _ :: _ => cases h

/-- The operand readers give well-formed instructions only: a number that does not fit is refused (R70). -/
theorem wf_of_parseOperands {m : Mnemonic} {ops : List Token} {i : Instr} (h : parseOperands m ops = .ok i) :
    i.WellFormed := by
  cases m with
  | NOP =>
    obtain rfl := parseNoOperand_ok h
    rfl
  | LOAD | STORE | MOV | ADD | SUB | CMP | AND | OR | XOR | NOT | INC | DEC =>
    obtain ⟨s, d, f, hf, rfl⟩ := parseRegisterALU_ok h
    exact decide_eq_true hf
  | IN | OUT =>
    obtain ⟨s, d, rfl⟩ := parsePortIO_ok h
    rfl
  | LDI =>
    obtain ⟨d, v, hv, rfl⟩ := parseLoadImmediate_ok h
    exact decide_eq_true hv
  | JMP | JMPM =>
    obtain ⟨c, r, rfl⟩ := parseJumpIndirect_ok h
    rfl
  | JMPA | JMPR =>
    obtain ⟨c, v, hv, rfl⟩ := parseJumpDirect_ok h
    exact decide_eq_true hv

theorem wf_of_parse {ts : List Token} {i : Instr} (h : parse ts = .ok i) : i.WellFormed := by
  by_cases hline : ∃ m ops, IsLine ts m ops
  · obtain ⟨m, ops, hline⟩ := hline
    rw [parse_of_isLine hline] at h
    exact wf_of_parseOperands h
  · rw [(firstDefect_of_not_isLine hline).1] at h
    cases h

theorem canonical_of_encode {T : Tables} {ts : List Token} {w : Word} (h : encode T ts = .ok w) :
    canonical T w = true := by
  obtain ⟨i, hparse, rfl⟩ := encode_eq_ok.mp h
  exact canonical_pack T (wf_of_parse hparse)

/-- Settles O31: the word is the packing of a well-formed instruction. -/
theorem encodedWordDecodesToParsedLine : Obligations.EncodedWordDecodesToParsedLine := by
  unfold Obligations.EncodedWordDecodesToParsedLine
  intro T ts w h
  refine ⟨canonical_of_encode h, ?_⟩
  obtain ⟨i, hparse, rfl⟩ := encode_eq_ok.mp h
  exact ⟨i, wf_of_parse hparse, hparse, decode_pack T (wf_of_parse hparse)⟩

/-- Settles O20: a canonical word is encoded by its canonical tokens and packed from what it decodes to; ENC and `pack`
give canonical words only. -/
theorem canonicalWordsAreTheEncodersImage : Obligations.CanonicalWordsAreTheEncodersImage := by
  unfold Obligations.CanonicalWordsAreTheEncodersImage
  refine fun T w => ⟨⟨fun hcan => ?_, ?_⟩, fun hcan => ?_, ?_⟩
  · exact ⟨_, fun t ht => (isTextToken_of_mem_renderTokens _ t ht).isToken T, encode_renderTokens_of_canonical hcan⟩
  · rintro ⟨ts, -, h⟩
    exact canonical_of_encode h
  · obtain ⟨i, hdec⟩ := exists_known_of_canonical hcan
    exact ⟨i, wf_of_decode_known hdec, pack_of_canonical hdec hcan⟩
  · rintro ⟨i, hwf, rfl⟩
    exact canonical_pack T hwf

/-! ### The text of each family (R92) -/

theorem joinTokens_three (a b c : Token) : joinTokens [a, b, c] = a ++ chars " " ++ b ++ chars " " ++ c := by
  rw [joinTokens_cons_cons, joinTokens_cons_cons, joinTokens]
  simp only [List.append_assoc]

theorem joinTokens_four (a b c d : Token) :
    joinTokens [a, b, c, d] = a ++ chars " " ++ b ++ chars " " ++ c ++ chars " " ++ d := by
  rw [joinTokens_cons_cons, joinTokens_three]
  simp only [List.append_assoc]

/-- The text of an instruction of two operand tokens. -/
theorem render_known_two {i : Instr} {a b : Token} (h : operandTokens i = [a, b]) :
    render (.known i) = i.mnemonic.token ++ chars " " ++ a ++ chars " " ++ b := by
  rw [render, renderTokens, h, joinTokens_three]

/-- The text of a RegisterALU member: the flag is printed when it is 1 (R92, R110). -/
theorem render_known_registerALU {i : Instr} {src dst : Reg} {flag : Nat}
    (h : operandTokens i = registerALUTokens src dst flag) (hflag : flag ≤ 1) :
    render (.known i) = i.mnemonic.token ++
      (chars " " ++ src.token ++ chars " " ++ dst.token ++ (if flag = 0 then [] else chars " 1")) := by
  by_cases hzero : flag = 0
  · subst hzero
    rw [render_known_two h, if_pos rfl, List.append_nil]
    simp only [List.append_assoc]
  · obtain rfl : flag = 1 := by omega
    rw [render, renderTokens, h, registerALUTokens, show flagTokens 1 = [chars "1"] from by decide, joinTokens_four,
      if_neg hzero, show chars " 1" = chars " " ++ chars "1" from rfl]
    simp only [List.append_assoc]

theorem toString_toList (v : Nat) : (toString v).toList = decimal v := by
  rw [Nat.toString_eq_ofList_toDigits, String.toList_ofList, decimal]

/-- Settles O33: the canonical tokens of each family, joined. -/
theorem canonicalTextForms : Obligations.CanonicalTextForms := by
  unfold Obligations.CanonicalTextForms
  simp only [toString_toList]
  refine ⟨rfl, fun r hr s d => ?_, fun r hr s d => ?_, fun d v => render_known_two rfl,
    fun c r => ⟨render_known_two rfl, render_known_two rfl⟩, fun c v => ⟨render_known_two rfl, render_known_two rfl⟩⟩
  · have hmember := isRegisterALU_of_mem r hr
    rw [render_known_registerALU (hmember.tokens s d 0) (by decide),
      render_known_registerALU (hmember.tokens s d 1) (by decide), hmember.mnemonic, hmember.mnemonic]
    simp [List.append_assoc]
  · have hmember := isPortIO_of_mem r hr
    rw [render_known_two (hmember.tokens s d), hmember.mnemonic]

/-! ### Completion: the answer each instruction gives (R105 to R148) -/

/-- Every meaning's next state is DEC's answer `Known(i)`, its raw opcode and its text; nothing else changes. -/
theorem exec_eq_afterDecoded (i : Instr) (s : State) :
    exec i s = .next (afterDecoded s (.known i) (opcodeCode s.tables i.opName) (render (.known i))) :=
  exec_eq_answerKnown i s

theorem exec_two_operands {i : Instr} {a b : Token} (h : operandTokens i = [a, b]) (s : State) :
    exec i s = .next (afterDecoded s (.known i) (opcodeCode s.tables i.opName)
      (i.mnemonic.token ++ chars " " ++ a ++ chars " " ++ b)) := by
  rw [exec_eq_afterDecoded, render_known_two h]

theorem exec_registerALU {i : Instr} {src dst : Reg} {flag : Nat}
    (h : operandTokens i = registerALUTokens src dst flag) (hflag : flag ≤ 1) (s : State) :
    exec i s = .next (afterDecoded s (.known i) (opcodeCode s.tables i.opName) (i.mnemonic.token ++
      (chars " " ++ src.token ++ chars " " ++ dst.token ++ (if flag = 0 then [] else chars " 1")))) := by
  rw [exec_eq_afterDecoded, render_known_registerALU h hflag]

/-- Settles O42: `exec_eq_afterDecoded`; NOP's text is its mnemonic. -/
theorem nopCompletes : Obligations.NopCompletes := by
  unfold Obligations.NopCompletes
  exact exec_eq_afterDecoded .nop

/-- Settles O43: `exec_registerALU`, for each member. -/
theorem registerALUCompletes : Obligations.RegisterALUCompletes := by
  unfold Obligations.RegisterALUCompletes
  intro s src dst flag hflag
  refine ⟨?_, ?_, ?_, ?_, ?_, ?_, ?_, ?_, ?_, ?_, ?_, ?_⟩ <;> exact exec_registerALU rfl hflag s

/-- Settles O44: `exec_two_operands`, for each member. -/
theorem portIOCompletes : Obligations.PortIOCompletes := by
  unfold Obligations.PortIOCompletes
  exact fun s src dst => ⟨exec_two_operands rfl s, exec_two_operands rfl s⟩

/-- Settles O45: `exec_two_operands`. -/
theorem ldiCompletes : Obligations.LdiCompletes := by
  unfold Obligations.LdiCompletes
  exact fun s dst imm => exec_two_operands rfl s

/-- Settles O46: `exec_two_operands`, for each member. -/
theorem jumpIndirectCompletes : Obligations.JumpIndirectCompletes := by
  unfold Obligations.JumpIndirectCompletes
  exact fun s cond reg => ⟨exec_two_operands rfl s, exec_two_operands rfl s⟩

/-- Settles O47: `exec_two_operands`, for each member. -/
theorem jumpDirectCompletes : Obligations.JumpDirectCompletes := by
  unfold Obligations.JumpDirectCompletes
  exact fun s cond imm => ⟨exec_two_operands rfl s, exec_two_operands rfl s⟩

/-! ### The invariant (R52, R88, R97) -/

theorem opcodeName_of_decode_unknown {T : Tables} {w : Word} {c : BitVec 6} (h : decode T w = .unknown c) :
    opcodeName T c = none := by
  cases hop : opcodeName T (opcodeField w) with
  | none =>
    rw [decode_of_none hop] at h
    injection h with h
    rwa [h] at hop
  | some op =>
    rw [decode_of_name hop] at h
    cases h

/-- ENC gives canonical words only (R52). -/
theorem encoded_sound (T : Tables) (ts : List Token) : Answer.Sound T (.encoded (encode T ts)) := by
  cases h : encode T ts with
  | error e => trivial
  | ok w => exact canonical_of_encode h

/-- DEC's output is consistent, whether the word is known or not (R88, R97). -/
theorem decOutput_sound (T : Tables) (w : Word) : (decOutput T w).Sound T := by
  cases hdec : decode T w with
  | known i =>
    have hwf := wf_of_decode_known hdec
    rw [decOutput_of_known hdec]
    refine ⟨hwf, opcodeName_opcodeCode T _, ?_⟩
    rw [tokenize_render, encode_renderTokens T hwf]
  | unknown c =>
    rw [decOutput_of_unknown hdec]
    exact ⟨opcodeName_of_decode_unknown hdec, rfl, encode_tokenize_render_unknown T c⟩

/-- Every call is answered soundly. -/
theorem answerOf_sound (T : Tables) (c : Call) : (answerOf T c).Sound T := by
  cases c with
  | line text => exact encoded_sound T _
  | tokens ts => exact encoded_sound T ts
  | word w => exact decOutput_sound T w

/-- Settles O57: the step's one new answer is sound by `answerOf_sound`, and the calls left were waiting before. -/
theorem stepKeepsTheInvariant : Obligations.StepKeepsTheInvariant := by
  unfold Obligations.StepKeepsTheInvariant
  rintro s s' ⟨hanswers, hcallsProper⟩ hstep
  cases hcalls : s.calls with
  | nil =>
    rw [step_of_calls_nil hcalls] at hstep
    cases hstep
    exact ⟨hanswers, hcallsProper⟩
  | cons c rest =>
    rw [step_of_calls_cons hcalls] at hstep
    cases hstep
    rw [hcalls] at hcallsProper
    refine ⟨fun a ha => ?_, (List.forall_mem_cons.mp hcallsProper).2⟩
    rcases List.mem_append.mp ha with hold | hnew
    · exact hanswers a hold
    · rw [List.mem_singleton.mp hnew]
      exact answerOf_sound s.tables c

/-- Settles O58: reset has no answer and no call; a call put first is one proper call more. -/
theorem resetHasTheInvariant : Obligations.ResetHasTheInvariant := by
  unfold Obligations.ResetHasTheInvariant
  refine ⟨⟨by simp, by simp⟩, fun s c hinv hproper => ⟨hinv.answers_sound, ?_⟩⟩
  exact List.forall_mem_cons.mpr ⟨hproper, hinv.calls_proper⟩

end Sys2Proof
